-- ==== Sys2Proof/Word.lean ====
section
/-! DEFINITION. Word.lean: the two word types of SC-CORE. -/
namespace Sys2Proof

/-- A memory cell, a register and every byte of an instruction: 8 bits, unsigned
(10_state.md R12, 20_memory.md R29). -/
abbrev Byte := BitVec 8

/-- The program counter: 9 bits, unsigned (10_state.md R15). -/
abbrev PcWord := BitVec 9

end Sys2Proof
end

