-- ==== Sys2Proof/Config.lean ====
section
/-! DEFINITION. Config.lean: the sizes the source fixes (00_scope.md R5). The other parameters of R5 stand where a repair
may mend them: the opcode bytes in Decode.lean; SP_INDEX, SP_INIT and ADD_DISPATCHED in Machine/Params.lean. The spec
leaves no value as a free draw (93_implementation_defined.md, part 1), so there is no free value here. -/
namespace Sys2Proof.Config

/-- `NREG`: the number of general registers (00_scope.md R5, 10_state.md R12). -/
abbrev nreg : Nat := 8

/-- `MEMSIZE`: the number of memory cells (00_scope.md R5, 20_memory.md R28). -/
abbrev memSize : Nat := 256

end Sys2Proof.Config

namespace Sys2Proof

/-- The index of a general register that exists: 0 to 7 (10_state.md R12). -/
abbrev RegIx := Fin Config.nreg

end Sys2Proof
end

