-- ==== Sys2Proof/Syntax.lean ====
section
/-! DEFINITION. Syntax.lean: the ten instructions (30_encoding.md R42), one constructor for each row of opcode_table.json.
A register operand is the whole operand byte, 0 to 255 (R45): whether it names a register is checked by the handler
(60_exceptions.md R78), not by the syntax. -/
namespace Sys2Proof

inductive Instr where
  /-- `LDI ra, imm`: load immediate (R59). -/
  | ldi (ra imm : Byte)
  /-- `PRN ra`: print register (R60). -/
  | prn (ra : Byte)
  /-- `MUL ra, rb`: multiply (R63). -/
  | mul (ra rb : Byte)
  /-- `HLT`: halt (R65). -/
  | hlt
  /-- `PUSH ra`: push register (R67). -/
  | push (ra : Byte)
  /-- `POP ra`: pop into register (R68). -/
  | pop (ra : Byte)
  /-- `JMP ra`: jump (R71). -/
  | jmp (ra : Byte)
  /-- `CMP ra, rb`: compare (R70). -/
  | cmp (ra rb : Byte)
  /-- `JEQ ra`: jump if equal (R72). -/
  | jeq (ra : Byte)
  /-- `JNE ra`: jump if not equal (R73). -/
  | jne (ra : Byte)
deriving DecidableEq, Repr

/-- The number of operands of an instruction's row (30_encoding.md R46, column `n`). -/
def Instr.operandCount : Instr → Nat
  | .ldi _ _ => 2
  | .prn _ => 1
  | .mul _ _ => 2
  | .hlt => 0
  | .push _ => 1
  | .pop _ => 1
  | .jmp _ => 1
  | .cmp _ _ => 2
  | .jeq _ => 1
  | .jne _ => 1

/-- The operand bytes an instruction uses as register indices, first operand first (10_state.md R14).
`LDI`'s immediate is none of them (60_exceptions.md R78). -/
def Instr.regOperands : Instr → List Byte
  | .ldi ra _ => [ra]
  | .prn ra => [ra]
  | .mul ra rb => [ra, rb]
  | .hlt => []
  | .push ra => [ra]
  | .pop ra => [ra]
  | .jmp ra => [ra]
  | .cmp ra rb => [ra, rb]
  | .jeq ra => [ra]
  | .jne ra => [ra]

end Sys2Proof
end

