-- ==== Sys2Proof/WellFormed.lean ====
section
/-! DEFINITION. WellFormed.lean: which instructions the assembly syntax can write (30_encoding.md R51): every register
operand names one of `R0` to `R7`. An instruction that is not well formed still decodes and runs: its handler aborts
(60_exceptions.md R78). -/
namespace Sys2Proof

/-- The operand byte names a register (10_state.md R12). -/
def isRegister (b : Byte) : Bool := decide (b.toNat < Config.nreg)

/-- Every register operand names a register. -/
def Instr.wf (i : Instr) : Bool := i.regOperands.all isRegister

end Sys2Proof
end

