-- ==== Sys2Proof/Decode.lean ====
section
/-! DEFINITION. Decode.lean: the opcode bytes, the decoder and the encoder (30_encoding.md R42 to R50). -/
namespace Sys2Proof

/-! ### The opcode bytes (R46). `opcLdi` and `opcHlt` are the source's; the others are spec decision D7, from general
knowledge (log entry 9). -/

def opcLdi : Byte := 0x82
def opcPrn : Byte := 0x47
def opcMul : Byte := 0xA2
def opcHlt : Byte := 0x01
def opcPush : Byte := 0x45
def opcPop : Byte := 0x46
def opcJmp : Byte := 0x54
def opcCmp : Byte := 0xA7
def opcJeq : Byte := 0x55
def opcJne : Byte := 0x56

/-- The byte of the optional `ADD` (42_alu.md R64): not one of the ten (spec decision D12, log entry 14). -/
def opcAdd : Byte := 0xA0

/-- The operand count an opcode byte declares: bits 7:6 (R44). -/
def declaredCount (ir : Byte) : Nat := (BitVec.extractLsb 7 6 ir).toNat

/-- Decoding of the 3-cell slot the sequencer fetches (40_sequencer.md R55, R56): `none` when the byte `ir` has no
registered handler. Dispatch is by the whole byte; the handler sees the declared operands only. -/
def decodeSlot (ir opa opb : Byte) : Option Instr :=
  if ir = opcLdi then some (.ldi opa opb)
  else if ir = opcPrn then some (.prn opa)
  else if ir = opcMul then some (.mul opa opb)
  else if ir = opcHlt then some .hlt
  else if ir = opcPush then some (.push opa)
  else if ir = opcPop then some (.pop opa)
  else if ir = opcJmp then some (.jmp opa)
  else if ir = opcCmp then some (.cmp opa opb)
  else if ir = opcJeq then some (.jeq opa)
  else if ir = opcJne then some (.jne opa)
  else none

/-- Why a byte sequence does not decode. -/
inductive DecodeReject where
  /-- No byte is left (log entry 19: the machine itself always has three). -/
  | noBytes
  /-- The first byte is none of the ten opcode bytes (R47, R48). -/
  | unrecognized (op : Byte)
  /-- The opcode byte declares more operand bytes than are left (log entry 19). -/
  | truncated (op : Byte)
deriving DecidableEq, Repr

/-- The decoder on any bytes: the instruction at their head and the bytes after it. The length of an instruction is
`1 + ir[7:6]` cells, known from its opcode byte alone (R49). -/
def decode : List Byte → Except DecodeReject (Instr × List Byte)
  | [] => .error .noBytes
  | ir :: rest =>
    match decodeSlot ir (rest.getD 0 0) (rest.getD 1 0) with
    | none => .error (.unrecognized ir)
    | some i =>
      if declaredCount ir ≤ rest.length then .ok (i, rest.drop (declaredCount ir))
      else .error (.truncated ir)

/-- The cells of an instruction, lowest address first (R43, R45, R46). -/
def encode : Instr → List Byte
  | .ldi ra imm => [opcLdi, ra, imm]
  | .prn ra => [opcPrn, ra]
  | .mul ra rb => [opcMul, ra, rb]
  | .hlt => [opcHlt]
  | .push ra => [opcPush, ra]
  | .pop ra => [opcPop, ra]
  | .jmp ra => [opcJmp, ra]
  | .cmp ra rb => [opcCmp, ra, rb]
  | .jeq ra => [opcJeq, ra]
  | .jne ra => [opcJne, ra]

/-- Byte `k` of a table word: bit 0 is the least significant bit of the first byte, the next byte counts on from bit 8;
bits at or above `nbits` are 0. -/
def tableByte (nbits w k : Nat) : Byte := BitVec.ofNat 8 ((w % 2 ^ nbits) / 2 ^ (8 * k))

/-- The instruction the decoder reads from a table word laid out as three cells. -/
def decodeTableWord (nbits w : Nat) : Option Instr :=
  match decode [tableByte nbits w 0, tableByte nbits w 1, tableByte nbits w 2] with
  | .ok (i, _) => some i
  | .error _ => none

end Sys2Proof
end

