-- ==== Sys2Proof/Machine/Params.lean ====
section
/-! DEFINITION. Machine/Params.lean: the parameters of 00_scope.md R5 that the spec decides itself, each at the spec's
default. -/
namespace Sys2Proof.Machine

/-- `SP_INDEX`: the slot of the stack-pointer register (10_state.md R13; spec decision D3, from general knowledge, log
entry 5). -/
def spIndex : RegIx := 7

/-- `SP_INIT`: the reset value of the stack-pointer register (10_state.md R13, R25; spec decision D4, from general
knowledge, log entry 6). -/
def spInit : Byte := 0xF4

/-- The reset value of the other seven registers (10_state.md R25; spec decision D5, log entry 7). -/
def regInit : Byte := 0

/-- `ADD_DISPATCHED`: whether an `ADD` instruction exists (42_alu.md R64; spec decision D12, log entry 14). -/
def addDispatched : Bool := false

/-- What a cell that nothing has written reads as: memory is zero-initialised (10_state.md R24, 20_memory.md R33). -/
def unlisted : Byte := 0

end Sys2Proof.Machine
end

