-- ==== Sys2Proof/Machine/State.lean ====
section
/-! DEFINITION. Machine/State.lean: the whole state of the machine (10_state.md R11), as plain data, its reset value
(R25), and the reasons a step can stop. -/
namespace Sys2Proof.Machine

/-- The three comparison flags `FL.E`, `FL.L`, `FL.G`: three separate bits with no packed view (10_state.md R18). -/
structure Flags where
  /-- `FL.E`: equal. -/
  e : Bool
  /-- `FL.L`: less-than. -/
  l : Bool
  /-- `FL.G`: greater-than. -/
  g : Bool
deriving DecidableEq, Repr

/-- The operation selector of the ALU (42_alu.md R61): requested by name, with no encoding. `other` is any operation the
ALU does not have (log entry 15). -/
inductive AluOp where
  | add
  | mul
  | other (name : String)
deriving DecidableEq, Repr

/-- The direction of a stack-pointer excursion (60_exceptions.md R80). -/
inductive StackDir where
  | push
  | pop
deriving DecidableEq, Repr

/-- The causes of an abort, complete (60_exceptions.md R75), kept symbolic (R82). -/
inductive AbortCause where
  /-- A memory access at `addr`, 256 or above (R79). Only fetch raises it. -/
  | memoryBounds (addr : Nat)
  /-- A passed register operand that names no register (R78). -/
  | registerIndex (i : Byte)
  /-- `PUSH` at `SP = 0`, or `POP` whose stack pointer to increment is 255 (R80). -/
  | stackBounds (dir : StackDir)
  /-- An ALU selector that is neither add nor multiply (R81). No program raises it. -/
  | aluUnsupported (op : AluOp)
deriving DecidableEq, Repr

/-- The run state (10_state.md R20). -/
inductive RunState where
  | running
  | halted
  | faulted (op : Byte)
  | aborted (cause : AbortCause)
deriving DecidableEq, Repr

/-- An event of the output stream (10_state.md R22): what a line says, not its text. -/
inductive Event where
  /-- `Print(v)`, emitted by `PRN`. -/
  | print (v : Byte)
  /-- `HaltNotice`, emitted by `HLT`. -/
  | haltNotice
  /-- `Diag(op)`, emitted by the sequencer on an unrecognized opcode. -/
  | diag (op : Byte)
  /-- `AbortDiag(cause)`, emitted by every abort. -/
  | abortDiag (cause : AbortCause)
deriving DecidableEq, Repr

/-- The machine (10_state.md R11). -/
structure State where
  /-- `x[0]` to `x[7]`, the stack-pointer slot among them (R12, R13). -/
  regs : Vector Byte Config.nreg
  /-- The program counter (R15). -/
  pc : PcWord
  /-- `FL.E`, `FL.L`, `FL.G` (R18). -/
  flags : Flags
  /-- `mem[0]` to `mem[255]` (R24): address and byte pairs, addresses strictly rising, no byte equal to `unlisted`. -/
  mem : List Host.Cell
  /-- The run state (R20). -/
  run : RunState
  /-- The output stream, oldest event first (R22). -/
  out : List Event
deriving DecidableEq, Repr

/-- Why a step has no next state. Raised by `step` alone, in the three run states that have no step (10_state.md R21,
40_sequencer.md R54). Safe: the spec gives the machine no step there. -/
inductive Fault where
  /-- The run has ended in `Halted`, the only normal end (70_reset_and_hazards.md R100). Raised by `step`; safe. -/
  | halted
  /-- The run has ended in `Faulted(op)` (60_exceptions.md R76). Raised by `step`; safe. -/
  | faulted (op : Byte)
  /-- The run has ended in `Aborted(cause)` (60_exceptions.md R77). Raised by `step`; safe. -/
  | aborted (cause : AbortCause)
deriving DecidableEq, Repr

/-- Why an instruction has no meaning in the model. -/
inductive Refusal where
  /-- An instruction without a meaning, raised by `exec`'s arm for it. No arm raises it: every instruction has its
  meaning. Safe. -/
  | notModelled (mnemonic : String)
deriving DecidableEq, Repr

/-- The reset state: construction, before the load (10_state.md R25, 70_reset_and_hazards.md R93, R94). -/
def State.reset : State where
  regs := (Vector.replicate Config.nreg regInit).set spIndex.val spInit
  pc := 0
  flags := ⟨false, false, false⟩
  mem := []
  run := .running
  out := []

end Sys2Proof.Machine
end

