-- ==== Sys2Proof/Machine/Flags.lean ====
section
/-! DEFINITION. Machine/Flags.lean: the flags' one computation, the compare (45_compare_branch.md R70). -/
namespace Sys2Proof.Machine

/-- All three flags cleared, then exactly one set: equal, else less-than, else greater-than, on unsigned values (R70). -/
def compareFlags (a b : Byte) : Flags :=
  if a.toNat = b.toNat then ⟨true, false, false⟩
  else if a.toNat < b.toNat then ⟨false, true, false⟩
  else ⟨false, false, true⟩

/-- Exactly one flag is set (10_state.md R18). -/
def Flags.exactlyOne (f : Flags) : Bool :=
  (f.e && !f.l && !f.g) || (!f.e && f.l && !f.g) || (!f.e && !f.l && f.g)

/-- The values the flags can hold: one-hot, or all clear before the first compare (90_conflicts.md C6). -/
def Flags.legal (f : Flags) : Bool := f.exactlyOne || (!f.e && !f.l && !f.g)

end Sys2Proof.Machine
end

