-- ==== Sys2Proof/Machine/Memory.lean ====
section
/-! DEFINITION. Machine/Memory.lean: reading and writing one cell of the canonical cell list. Bounds are checked by the
operations over the state (Machine/Ops.lean), not here. -/
namespace Sys2Proof.Machine

/-- The value of the cell at `a`. -/
def memGet : List Host.Cell → Nat → Byte
  | [], _ => unlisted
  | (k, v) :: rest, a => if k = a then v else memGet rest a

/-- The cells with a cell `(a, v)` before `rest`, left out when it holds what an unlisted cell reads as. -/
def memCons (a : Nat) (v : Byte) (rest : List Host.Cell) : List Host.Cell :=
  if v = unlisted then rest else (a, v) :: rest

/-- The memory after the cell at `a` is given the value `v`. -/
def memSet : List Host.Cell → Nat → Byte → List Host.Cell
  | [], a, v => memCons a v []
  | (k, w) :: rest, a, v =>
    if k < a then (k, w) :: memSet rest a v
    else if k = a then memCons a v rest
    else memCons a v ((k, w) :: rest)

/-- The canonical form above address `lo`: addresses at least `lo`, strictly rising, all of them cells of the machine, no
entry that reads as an unlisted cell does. -/
def memWfFrom : Nat → List Host.Cell → Bool
  | _, [] => true
  | lo, (k, v) :: rest =>
    decide (lo ≤ k) && decide (k < Config.memSize) && decide (v ≠ unlisted) && memWfFrom (k + 1) rest

/-- The canonical form of memory. -/
def Memory.wf (m : List Host.Cell) : Bool := memWfFrom 0 m

/-- The cells `a`, `a + 1`, ... given the values of `bs`. -/
def memSetAll : List Host.Cell → Nat → List Byte → List Host.Cell
  | m, _, [] => m
  | m, a, b :: bs => memSetAll (memSet m a b) (a + 1) bs

end Sys2Proof.Machine
end

