-- ==== Sys2Proof/Machine/Operands.lean ====
section
/-! DEFINITION. Machine/Operands.lean: the operand forms and the width conversions of 00_scope.md R8. The machine has two
operand forms: a register index, the whole byte checked against `NREG`, and `LDI`'s immediate, the whole byte as it is
(30_encoding.md R45). -/
namespace Sys2Proof.Machine

/-- `trunc8(n)`: `n mod 256` (00_scope.md R8). -/
def trunc8 (n : Nat) : Byte := BitVec.ofNat 8 n

/-- `zext_9(v)`: the same magnitude in 9 bits (00_scope.md R8). -/
def zext9 (v : Byte) : PcWord := v.setWidth 9

/-- The register an operand byte names: never masked to 3 bits, an index of 8 or more aborts (60_exceptions.md R78). -/
def regIndex (b : Byte) : Except AbortCause RegIx :=
  if h : b.toNat < Config.nreg then .ok ⟨b.toNat, h⟩ else .error (.registerIndex b)

end Sys2Proof.Machine
end

