-- ==== Sys2Proof/Machine/Ops.lean ====
section
/-! DEFINITION. Machine/Ops.lean: the primitives of 00_scope.md R8 over the state, and the two terminations of
60_exceptions.md R76, R77. A primitive that can `raise Abort` answers in `Except AbortCause`; `settle` is where an abort
becomes a state. -/
namespace Sys2Proof.Machine

/-! ### Registers -/

/-- The value of slot `r`. -/
def State.reg (s : State) (r : RegIx) : Byte := s.regs[r.val]

/-- The state with slot `r` holding `v`. -/
def State.setReg (s : State) (r : RegIx) (v : Byte) : State := { s with regs := s.regs.set r.val v }

/-- `SP`: the stack-pointer register (10_state.md R13). -/
def State.sp (s : State) : Byte := s.reg spIndex

/-- `SP <- v`. -/
def State.setSp (s : State) (v : Byte) : State := s.setReg spIndex v

/-- `x[i]` (R8): aborts when `i` names no register. -/
def readReg (i : Byte) (s : State) : Except AbortCause Byte :=
  match regIndex i with
  | .ok r => .ok (s.reg r)
  | .error c => .error c

/-- `x[i] <- v` (R8): aborts when `i` names no register. -/
def writeReg (i v : Byte) (s : State) : Except AbortCause State :=
  match regIndex i with
  | .ok r => .ok (s.setReg r v)
  | .error c => .error c

/-! ### Memory -/

/-- The value of the cell at `a`. -/
def State.cell (s : State) (a : Nat) : Byte := memGet s.mem a

/-- `MemRead(addr, 1)` (R8, 20_memory.md R30). -/
def memRead (addr : Nat) (s : State) : Except AbortCause Byte :=
  if addr < Config.memSize then .ok (s.cell addr) else .error (.memoryBounds addr)

/-- `MemWrite(addr, 1, v)` (R8, 20_memory.md R30). -/
def memWrite (addr : Nat) (v : Byte) (s : State) : Except AbortCause State :=
  if addr < Config.memSize then .ok { s with mem := memSet s.mem addr v } else .error (.memoryBounds addr)

/-! ### Program counter, flags, output -/

/-- `pc <- pc + k`, in 9 bits (10_state.md R16, R17; log entry 10). -/
def State.advance (s : State) (k : PcWord) : State := { s with pc := s.pc + k }

/-- `pc <- zext_9(v)` (10_state.md R16, 45_compare_branch.md R74). -/
def State.jumpTo (s : State) (v : Byte) : State := { s with pc := zext9 v }

/-- The flags replaced. -/
def State.setFlags (s : State) (f : Flags) : State := { s with flags := f }

/-- The run state replaced. -/
def State.setRun (s : State) (r : RunState) : State := { s with run := r }

/-- `emit(ev)`: the event appended to the output stream (10_state.md R22). -/
def State.emit (s : State) (ev : Event) : State := { s with out := s.out ++ [ev] }

/-! ### Taking an exception. Nothing is saved and control goes nowhere: the run ends (60_exceptions.md R85); there is no
return (R86). -/

/-- `raise Abort(cause)` in the state before the instruction, so that every write of it is discarded (R77). -/
def takeAbort (c : AbortCause) (s : State) : State := (s.emit (.abortDiag c)).setRun (.aborted c)

/-- `raise Unrecognized(op)` (R76). -/
def takeUnrecognized (op : Byte) (s : State) : State := (s.emit (.diag op)).setRun (.faulted op)

/-- The end of a handler begun in `s`: its state when it completes, the abort taken in `s` itself when it raises one
(00_scope.md R9, 60_exceptions.md R77). -/
def settle (s : State) : Except AbortCause State → Host.Outcome State Fault Refusal
  | .ok t => .next t
  | .error c => .next (takeAbort c s)

end Sys2Proof.Machine
end

