-- ==== Sys2Proof/Machine/Alu.lean ====
section
/-! DEFINITION. Machine/Alu.lean: the arithmetic-logic unit, MUL, and the optional ADD (42_alu.md). -/
namespace Sys2Proof.Machine

/-- The value the ALU computes, exact on natural numbers and then wrapped modulo 256 (R61, R62; spec decision D1, log
entry 4). -/
def aluValue (op : AluOp) (a b : Byte) : Except AbortCause Byte :=
  match op with
  | .add => .ok (trunc8 (a.toNat + b.toNat))
  | .mul => .ok (trunc8 (a.toNat * b.toNat))
  | .other n => .error (.aluUnsupported (.other n))

/-- `ALU(op, ra, rb)` (R61): both registers read, then the first written. -/
def alu (op : AluOp) (ra rb : Byte) (s : State) : Except AbortCause State := do
  let a ← readReg ra s
  let b ← readReg rb s
  let v ← aluValue op a b
  writeReg ra v s

/-- `MUL ra, rb` (R63). -/
def execMul (ra rb : Byte) (s : State) : Host.Outcome State Fault Refusal :=
  settle s do
    let t ← alu .mul ra rb s
    .ok (t.advance 3)

/-- The optional `ADD ra, rb` (R64), reached only where `ADD_DISPATCHED` is true (log entry 14). -/
def execAdd (ra rb : Byte) (s : State) : Host.Outcome State Fault Refusal :=
  settle s do
    let t ← alu .add ra rb s
    .ok (t.advance 3)

end Sys2Proof.Machine
end

