-- ==== Sys2Proof/Machine/Branch.lean ====
section
/-! DEFINITION. Machine/Branch.lean: CMP, JMP, JEQ and JNE (45_compare_branch.md). -/
namespace Sys2Proof.Machine

/-- `CMP ra, rb` (R70). -/
def execCmp (ra rb : Byte) (s : State) : Host.Outcome State Fault Refusal :=
  settle s do
    let a ← readReg ra s
    let b ← readReg rb s
    .ok ((s.setFlags (compareFlags a b)).advance 3)

/-- `JMP ra` (R71). -/
def execJmp (ra : Byte) (s : State) : Host.Outcome State Fault Refusal :=
  settle s do
    let v ← readReg ra s
    .ok (s.jumpTo v)

/-- A conditional jump: the index is checked whether or not the jump is taken (R72, R73). -/
def jumpIf (taken : Bool) (ra : Byte) (s : State) : Except AbortCause State := do
  let v ← readReg ra s
  .ok (if taken then s.jumpTo v else s.advance 2)

/-- `JEQ ra` (R72). -/
def execJeq (ra : Byte) (s : State) : Host.Outcome State Fault Refusal :=
  settle s (jumpIf s.flags.e ra s)

/-- `JNE ra` (R73). -/
def execJne (ra : Byte) (s : State) : Host.Outcome State Fault Refusal :=
  settle s (jumpIf (!s.flags.e) ra s)

end Sys2Proof.Machine
end

