-- ==== Sys2Proof/Machine/Halt.lean ====
section
/-! DEFINITION. Machine/Halt.lean: HLT (43_halt.md). -/
namespace Sys2Proof.Machine

/-- `HLT` (R65). -/
def execHlt (s : State) : Host.Outcome State Fault Refusal :=
  settle s (.ok (((s.emit .haltNotice).setRun .halted).advance 1))

end Sys2Proof.Machine
end

