-- ==== Sys2Proof/Machine/LoadPrint.lean ====
section
/-! DEFINITION. Machine/LoadPrint.lean: LDI and PRN (41_load_print.md). -/
namespace Sys2Proof.Machine

/-- `LDI ra, imm` (R59). -/
def execLdi (ra imm : Byte) (s : State) : Host.Outcome State Fault Refusal :=
  settle s do
    let t ← writeReg ra imm s
    .ok (t.advance 3)

/-- `PRN ra` (R60). -/
def execPrn (ra : Byte) (s : State) : Host.Outcome State Fault Refusal :=
  settle s do
    let v ← readReg ra s
    .ok ((s.emit (.print v)).advance 2)

end Sys2Proof.Machine
end

