-- ==== Sys2Proof/Machine/Stack.lean ====
section
/-! DEFINITION. Machine/Stack.lean: PUSH and POP (44_stack.md). -/
namespace Sys2Proof.Machine

/-- The address `PUSH` stores to: the decremented stack pointer (20_memory.md R34, 44_stack.md R67). -/
def pushAddress (s : State) : Nat := s.sp.toNat - 1

/-- `PUSH ra` (R67): decrement, then write the register as it stands after the decrement. -/
def execPush (ra : Byte) (s : State) : Host.Outcome State Fault Refusal :=
  settle s do
    let _ ← regIndex ra
    if s.sp.toNat = 0 then .error (.stackBounds .push) else
    let a := pushAddress s
    let t := s.setSp (trunc8 a)
    let v ← readReg ra t
    let u ← memWrite a v t
    .ok (u.advance 2)

/-- `POP ra` (R68): read into the register, then increment the stack pointer as it stands after that write. -/
def execPop (ra : Byte) (s : State) : Host.Outcome State Fault Refusal :=
  settle s do
    let _ ← regIndex ra
    let v ← memRead s.sp.toNat s
    let t ← writeReg ra v s
    if t.sp.toNat = 255 then .error (.stackBounds .pop) else
    .ok ((t.setSp (trunc8 (t.sp.toNat + 1))).advance 2)

end Sys2Proof.Machine
end

