-- ==== Sys2Proof/Machine/Sequencer.lean ====
section
/-! DEFINITION. Machine/Sequencer.lean: fetch, decode and dispatch (40_sequencer.md R54 to R58), and the placing of an
instruction where the next step fetches. -/
namespace Sys2Proof.Machine

/-- The 3-cell slot a step fetches (R55). -/
structure Slot where
  ir : Byte
  opa : Byte
  opb : Byte
deriving DecidableEq, Repr

/-- Fetch: the cells at `pc`, `pc + 1`, `pc + 2`, all three read on every step, in that order, each bounds-checked (R55;
90_conflicts.md C5). The addresses do not wrap. -/
def fetch (s : State) : Except AbortCause Slot := do
  let ir ← memRead s.pc.toNat s
  let opa ← memRead (s.pc.toNat + 1) s
  let opb ← memRead (s.pc.toNat + 2) s
  .ok ⟨ir, opa, opb⟩

/-- Decode and dispatch of a fetched slot (R56). `withAdd` is `ADD_DISPATCHED` (42_alu.md R64). -/
def dispatchSlot (withAdd : Bool) (c : Slot) (s : State) : Host.Outcome State Fault Refusal :=
  match decodeSlot c.ir c.opa c.opb with
  | some i => exec i s
  | none =>
    if withAdd && c.ir == opcAdd then execAdd c.opa c.opb s
    else .next (takeUnrecognized c.ir s)

/-- One cycle of a running machine (R54). -/
def cycle (withAdd : Bool) (s : State) : Host.Outcome State Fault Refusal :=
  match fetch s with
  | .ok c => dispatchSlot withAdd c s
  | .error a => .next (takeAbort a s)

/-- The step with `ADD_DISPATCHED` as an argument: one cycle exactly when the machine is running (R54, 10_state.md
R21). -/
def stepWith (withAdd : Bool) (s : State) : Host.Outcome State Fault Refusal :=
  match s.run with
  | .running => cycle withAdd s
  | .halted => .fault .halted
  | .faulted op => .fault (.faulted op)
  | .aborted c => .fault (.aborted c)

/-- The state made ready to fetch: running, with `pc` kept where it leaves room for three cells and set to 0 where it
does not (log entry 18). -/
def readyToFetch (s : State) : State :=
  { s with run := .running, pc := if s.pc.toNat ≤ 253 then s.pc else 0 }

/-- The three cells of a table word stored at `pc` of a state made ready to fetch. -/
def placeWord (s : State) (nbits w : Nat) : State :=
  let r := readyToFetch s
  { r with mem := memSetAll r.mem r.pc.toNat [tableByte nbits w 0, tableByte nbits w 1, tableByte nbits w 2] }

end Sys2Proof.Machine
end

