-- ==== Sys2Proof/Machine/Loader.lean ====
section
/-! DEFINITION. Machine/Loader.lean: the load interface (10_state.md R23) and the program image text (70_reset_and_hazards.md
R95 to R97, 30_encoding.md R52). It acts between reset and the first step only; `step` never calls it. -/
namespace Sys2Proof.Machine

/-- Why an image is refused, so that no machine runs (70_reset_and_hazards.md R97; spec decision D15). -/
inductive LoadRefusal where
  /-- The image has `len` bytes, more than the memory has cells. -/
  | imageTooLong (len : Nat)
  /-- A line holds a numeral of 9 or more binary digits. -/
  | numeralTooLong
deriving DecidableEq, Repr

/-- `mem[k] <- b[k]` for every byte of the image; an image over 256 bytes is refused (R95, R97). -/
def loadImage (image : List Byte) (s : State) : Except LoadRefusal State :=
  if image.length ≤ Config.memSize then .ok { s with mem := memSetAll s.mem 0 image }
  else .error (.imageTooLong image.length)

/-- What one line of image text yields (R96). -/
inductive LineResult where
  /-- One byte, at the next address. -/
  | byte (b : Byte)
  /-- Nothing: no address is consumed. -/
  | skipped
  /-- The image is refused (R97). -/
  | refused
deriving DecidableEq, Repr

/-- The line before its first `#` (R96). -/
def stripComment (line : List Char) : List Char := line.takeWhile (· != '#')

/-- White space removed from both ends (R96; which characters are white space is log entry 17). -/
def trim (cs : List Char) : List Char :=
  ((cs.dropWhile Char.isWhitespace).reverse.dropWhile Char.isWhitespace).reverse

/-- A binary digit. -/
def isBinaryDigit (c : Char) : Bool := c == '0' || c == '1'

/-- The value of a base-2 numeral, most significant digit first (R96). -/
def numeralValue (cs : List Char) : Nat := cs.foldl (fun n c => 2 * n + (if c == '1' then 1 else 0)) 0

/-- One line: 1 to 8 binary digits are a byte, 9 or more are refused, anything else is skipped (R96, R97). -/
def parseLine (line : List Char) : LineResult :=
  let r := trim (stripComment line)
  if r.isEmpty || !r.all isBinaryDigit then .skipped
  else if r.length ≤ 8 then .byte (trunc8 (numeralValue r))
  else .refused

/-- The image of a text, one byte for each accepted line, in line order (R96). -/
def parseLines : List (List Char) → Except LoadRefusal (List Byte)
  | [] => .ok []
  | line :: rest =>
    match parseLine line with
    | .byte b => (parseLines rest).map (b :: ·)
    | .skipped => parseLines rest
    | .refused => .error .numeralTooLong

/-- A text loaded (R95 to R97). -/
def loadText (lines : List (List Char)) (s : State) : Except LoadRefusal State := do
  let image ← parseLines lines
  loadImage image s

end Sys2Proof.Machine
end

