-- ==== Sys2Proof/Safety.lean ====
section
/-! DEFINITION. Safety.lean: what a run is, how it can end (70_reset_and_hazards.md R100), the invariant every step
keeps, and the statements' words for a line of image text (R96). -/
namespace Sys2Proof.Machine

/-- The run has ended: there is no further step (R100). -/
def State.ended (s : State) : Bool := decide (s.run ≠ .running)

/-- The run ended normally: `Halted` is the only normal end (R100, 60_exceptions.md R77). -/
def State.endedNormally (s : State) : Bool := decide (s.run = .halted)

/-- What an abort leaves of the state `s` before the instruction: `run` and `out` differ, nothing else (60_exceptions.md
R77, R87). The statements' own words, not the machine's. -/
def abortedFrom (s : State) (c : AbortCause) : State :=
  { s with run := .aborted c, out := s.out ++ [.abortDiag c] }

/-- What an unrecognized byte leaves of the state `s`: `run` and `out` differ, nothing else (60_exceptions.md R76). The
statements' own words, not the machine's. -/
def faultedFrom (s : State) (op : Byte) : State :=
  { s with run := .faulted op, out := s.out ++ [.diag op] }

/-- The states of the runs of an image: the loaded reset state and every state a step leads to (70_reset_and_hazards.md
R95, R103, 40_sequencer.md R58). -/
inductive Reachable (image : List Byte) : State → Prop where
  | loaded (s : State) : loadImage image State.reset = .ok s → Reachable image s
  | stepped (s t : State) : Reachable image s → step s = .next t → Reachable image t

/-- What remains of a line of image text when its comment and the white space at both ends are gone (70_reset_and_hazards.md
R96): white space, `remainder`, white space, and then nothing or a `#` with anything after it; `remainder` holds no `#` and
neither begins nor ends with white space. The statements' own words, not the loader's. -/
def LineRemainder (line remainder : List Char) : Prop :=
  ∃ before after tail : List Char, line = before ++ remainder ++ after ++ tail ∧
    (∀ c ∈ before, c.isWhitespace = true) ∧ (∀ c ∈ after, c.isWhitespace = true) ∧
    (tail = [] ∨ tail.head? = some '#') ∧ '#' ∉ remainder ∧
    (∀ c, remainder.head? = some c ∨ remainder.getLast? = some c → c.isWhitespace = false)

/-- A numeral: one or more characters, each `0` or `1` (R96). -/
def IsNumeral (cs : List Char) : Prop := cs ≠ [] ∧ ∀ c ∈ cs, c = '0' ∨ c = '1'

/-- The line of image text yields a byte, and so takes an address (R96). -/
def yieldsByte (line : List Char) : Bool :=
  match parseLine line with
  | .byte _ => true
  | _ => false

/-- Instructions run one after another by their handlers, with no fetch between them. -/
def execAll : List Instr → State → Host.Outcome State Fault Refusal
  | [], s => .next s
  | i :: is, s =>
    match exec i s with
    | .next t => execAll is t
    | .fault r => .fault r
    | .refused r => .refused r

/-- A `Print` event, the only one a running machine has emitted (10_state.md R22). -/
def Event.isPrint : Event → Bool
  | .print _ => true
  | _ => false

/-- The stream is prints and then `ev`. -/
def printsThen (ev : Event) (out : List Event) : Bool :=
  decide (out.getLast? = some ev) && out.dropLast.all Event.isPrint

/-- The byte is one of the ten opcode bytes (30_encoding.md R46). -/
def recognized (op : Byte) : Bool := (decodeSlot op 0 0).isSome

/-- The state shows the abort's cause, `pc` still at the aborted instruction (60_exceptions.md R78 to R81, R87). -/
def abortShown (s : State) : AbortCause → Prop
  | .memoryBounds a => a = 256 ∧ 254 ≤ s.pc.toNat
  | .registerIndex i =>
    s.pc.toNat ≤ 253 ∧ recognized (s.cell s.pc.toNat) = true ∧ 8 ≤ i.toNat ∧
      (s.cell (s.pc.toNat + 1) = i ∨ s.cell (s.pc.toNat + 2) = i)
  | .stackBounds .push => s.pc.toNat ≤ 253 ∧ s.cell s.pc.toNat = opcPush ∧ s.sp = 0
  | .stackBounds .pop =>
    s.pc.toNat ≤ 253 ∧ s.cell s.pc.toNat = opcPop ∧ (s.sp = 255 ∨ s.cell s.sp.toNat = 255)
  | .aluUnsupported _ => False

/-- How the run state, the output stream and `pc` agree (R100). -/
def endShown (s : State) : Prop :=
  match s.run with
  | .running => s.out.all Event.isPrint = true
  | .halted =>
    printsThen .haltNotice s.out = true ∧ 1 ≤ s.pc.toNat ∧ s.pc.toNat ≤ 254 ∧ s.cell (s.pc.toNat - 1) = opcHlt
  | .faulted op =>
    printsThen (.diag op) s.out = true ∧ s.pc.toNat ≤ 253 ∧ s.cell s.pc.toNat = op ∧ recognized op = false
  | .aborted c => printsThen (.abortDiag c) s.out = true ∧ abortShown s c

/-- The invariant: memory keeps its canonical form; `pc` is at most 256 (10_state.md R15); the flags are one-hot or all
clear (90_conflicts.md C6); and the end of the run, once reached, is the one its state and its output show (R100). -/
structure State.Inv (s : State) : Prop where
  memCanonical : Memory.wf s.mem = true
  pcBounded : s.pc.toNat ≤ 256
  flagsLegal : s.flags.legal = true
  endAgrees : endShown s

end Sys2Proof.Machine
end

