-- ==== Sys2Proof/Certificates/Slice0/Obligations.lean ====
section
/-! DEFINITION. Certificates/Slice0/Obligations.lean: the statements for the provers.

`s.pc + k` below is the 9-bit sum; it does not wrap wherever an instruction executes (`pc` at most 253, 40_sequencer.md
R55), which PcMovesAsTabled states on natural numbers. Clauses that rest on a decision the spec marks as its own name it
(D<n> of 92_eei_decisions.md). -/
open Sys2Proof Sys2Proof.Machine

/-! ### Encoding -/

/-- Words written out from the tables of 30_encoding.md R43, R46 decode to the instruction they stand for, each with the
byte after it left over. The bytes but 0x82 and 0x01 are decision D7 (log entry 9). The last two clauses are section 4's
(R47, R48): 0xA0 is unrecognized by decision D12 (log entry 14), 0xC1 by decision D24. -/
def Obligations.WrittenWordsDecode : Prop :=
  decode [0b10000010, 0b00000000, 0b00000101, 9] = .ok (.ldi 0 5, [9]) ∧
  decode [0b01000111, 0b00000010, 9] = .ok (.prn 2, [9]) ∧
  decode [0b10100010, 0b00000010, 0b00000011, 9] = .ok (.mul 2 3, [9]) ∧
  decode [0b00000001, 9] = .ok (.hlt, [9]) ∧
  decode [0b01000101, 0b00000111, 9] = .ok (.push 7, [9]) ∧
  decode [0b01000110, 0b11111111, 9] = .ok (.pop 255, [9]) ∧
  decode [0b01010100, 0b00000011, 9] = .ok (.jmp 3, [9]) ∧
  decode [0b10100111, 0b00000000, 0b00000001, 9] = .ok (.cmp 0 1, [9]) ∧
  decode [0b01010101, 0b00000010, 9] = .ok (.jeq 2, [9]) ∧
  decode [0b01010110, 0b00000001, 9] = .ok (.jne 1, [9]) ∧
  decode [0b10100000, 0, 0] = .error (.unrecognized 0xA0) ∧
  decode [0b11000001, 0, 0] = .error (.unrecognized 0xC1)

/-- Decoding and encoding agree exactly, for every instruction with every operand byte, whatever follows it (R43, R45, R46,
R49): an encoded instruction decodes to itself and leaves what follows, and what decodes is the encoding of what it decodes
to, so each byte sequence has one meaning. -/
def Obligations.DecodeAndEncodeAgree : Prop :=
  (∀ (i : Instr) (rest : List Byte), decode (encode i ++ rest) = .ok (i, rest)) ∧
  (∀ (bytes rest : List Byte) (i : Instr), decode bytes = .ok (i, rest) → bytes = encode i ++ rest)

/-- 30_encoding.md R44: for every opcode byte of the dispatch table, `ir[7:6]` is 0, 1 or 2, it is the number of operands
of the instruction's row, and that many operand bytes are passed to the handler (taken from the bytes that follow). -/
def Obligations.OperandCountIsTopTwoBits : Prop :=
  ∀ (ir : Byte) (bytes rest : List Byte) (i : Instr), decode (ir :: bytes) = .ok (i, rest) →
    (ir >>> 6).toNat ≤ 2 ∧ i.operandCount = (ir >>> 6).toNat ∧ bytes.length = rest.length + (ir >>> 6).toNat

/-- 40_sequencer.md R56, 60_exceptions.md R78: a byte fetched but not passed has no effect: the slot decodes to the same
instruction whatever the cells beyond the declared operands hold. -/
def Obligations.UnpassedCellsHaveNoEffect : Prop :=
  ∀ (ir a b a' b' : Byte), ((ir >>> 6).toNat = 0 ∨ a' = a) → ((ir >>> 6).toNat ≤ 1 ∨ b' = b) →
    decodeSlot ir a' b' = decodeSlot ir a b

/-! ### Reset -/

/-- The reset state, piece by piece (10_state.md R25). `pc`, memory and `run` are the source's; the registers are decisions
D3, D4, D5 (log entries 5 to 7), the flags D6 (log entry 8). -/
def Obligations.ResetStateIsTheTable : Prop :=
  State.reset.pc = 0 ∧ (∀ a, State.reset.cell a = 0) ∧ State.reset.run = .running ∧ State.reset.out = [] ∧
  (∀ r : RegIx, State.reset.reg r = if r = 7 then 0xF4 else 0) ∧ State.reset.sp = 0xF4 ∧
  State.reset.flags = ⟨false, false, false⟩

/-! ### The ten instructions: where each completes and what it leaves, and where it aborts instead. An abort leaves the
state before the instruction with `run` and `out` changed (decision D9, log entry 11; that it is a next state is the model's
reading, log entry 1); the index clauses are decision D10, the stack clauses D11. -/

/-- `LDI ra, imm` (41_load_print.md R59). The abort clause, a next state with only `run` and `out` changed, rests on
decisions D9 and D10 and on log entry 1. -/
def Obligations.LdiLoadsTheImmediate : Prop :=
  ∀ (ra imm : Byte) (s : State),
    encode (.ldi ra imm) = [0x82, ra, imm] ∧
    (∀ h : ra.toNat < 8,
      exec (.ldi ra imm) s = .next { s with regs := s.regs.set ra.toNat imm h, pc := s.pc + 3 }) ∧
    (8 ≤ ra.toNat → exec (.ldi ra imm) s = .next (abortedFrom s (.registerIndex ra)))

/-- `PRN ra` (41_load_print.md R60): the 8-bit value, read as unsigned (D2); opcode byte D7. -/
def Obligations.PrnEmitsTheRegister : Prop :=
  ∀ (ra : Byte) (s : State),
    encode (.prn ra) = [0x47, ra] ∧
    (∀ h : ra.toNat < 8,
      exec (.prn ra) s = .next { s with out := s.out ++ [.print (s.regs[ra.toNat]'h)], pc := s.pc + 2 }) ∧
    (8 ≤ ra.toNat → exec (.prn ra) s = .next (abortedFrom s (.registerIndex ra)))

/-- `MUL ra, rb` (42_alu.md R61 to R63): the product modulo 256 (D1); `ra` is checked first (D17); opcode byte D7. -/
def Obligations.MulMultipliesModulo256 : Prop :=
  ∀ (ra rb : Byte) (s : State),
    encode (.mul ra rb) = [0xA2, ra, rb] ∧
    (∀ (h : ra.toNat < 8) (h' : rb.toNat < 8), ∃ v : Byte,
      v.toNat = ((s.regs[ra.toNat]'h).toNat * (s.regs[rb.toNat]'h').toNat) % 256 ∧
      exec (.mul ra rb) s = .next { s with regs := s.regs.set ra.toNat v h, pc := s.pc + 3 }) ∧
    (8 ≤ ra.toNat → exec (.mul ra rb) s = .next (abortedFrom s (.registerIndex ra))) ∧
    (ra.toNat < 8 → 8 ≤ rb.toNat → exec (.mul ra rb) s = .next (abortedFrom s (.registerIndex rb)))

/-- `HLT` (43_halt.md R65): it completes in every state; the two cells after it are discarded; after it the machine has no
further step, which the model answers with a fault (log entry 2); at 254 or 255 the fetch aborts first, with only `run` and
`out` changed (decisions D8 and D9, log entry 1). -/
def Obligations.HltHaltsAndAdvancesByOne : Prop :=
  ∀ s : State,
    encode .hlt = [0x01] ∧
    exec .hlt s = .next { s with out := s.out ++ [.haltNotice], run := .halted, pc := s.pc + 1 } ∧
    (∀ t, exec .hlt s = .next t → step t = .fault .halted) ∧
    (∀ a b : Byte, decodeSlot 0x01 a b = some .hlt) ∧
    (s.run = .running → s.pc.toNat = 254 ∨ s.pc.toNat = 255 → s.cell s.pc.toNat = 0x01 →
      step s = .next (abortedFrom s (.memoryBounds 256)))

/-- `PUSH ra` (44_stack.md R67): the stack pointer goes down by one and the register, as it stands after that, is stored
at the new address; every other cell reads as before. Opcode byte D7. -/
def Obligations.PushDecrementsThenStores : Prop :=
  ∀ (ra : Byte) (s : State), Memory.wf s.mem = true →
    encode (.push ra) = [0x45, ra] ∧
    (∀ h : ra.toNat < 8, s.sp.toNat ≠ 0 → ∃ t,
      exec (.push ra) s = .next t ∧
      t.sp.toNat = s.sp.toNat - 1 ∧ (∀ r, r ≠ spIndex → t.reg r = s.reg r) ∧
      (∀ a, t.cell a = if a = s.sp.toNat - 1 then t.reg ⟨ra.toNat, h⟩ else s.cell a) ∧
      t.pc = s.pc + 2 ∧ t.flags = s.flags ∧ t.run = s.run ∧ t.out = s.out) ∧
    (8 ≤ ra.toNat → exec (.push ra) s = .next (abortedFrom s (.registerIndex ra))) ∧
    (ra.toNat < 8 → s.sp.toNat = 0 → exec (.push ra) s = .next (abortedFrom s (.stackBounds .push)))

/-- `POP ra` (44_stack.md R68): the cell at the stack pointer goes into the register, then the stack pointer, as it stands
after that, goes up by one; `POP` of the stack pointer itself increments the loaded value. Opcode byte D7. -/
def Obligations.PopReadsThenIncrements : Prop :=
  ∀ (ra : Byte) (s : State),
    encode (.pop ra) = [0x46, ra] ∧
    (∀ h : ra.toNat < 8, ra.toNat ≠ spIndex.val → s.sp.toNat ≠ 255 → ∃ t,
      exec (.pop ra) s = .next t ∧
      t.reg ⟨ra.toNat, h⟩ = s.cell s.sp.toNat ∧ t.sp.toNat = s.sp.toNat + 1 ∧
      (∀ r : RegIx, r.val ≠ ra.toNat → r ≠ spIndex → t.reg r = s.reg r) ∧
      t = { s with regs := t.regs, pc := s.pc + 2 }) ∧
    (ra.toNat = spIndex.val → (s.cell s.sp.toNat).toNat ≠ 255 → ∃ t,
      exec (.pop ra) s = .next t ∧
      t.sp.toNat = (s.cell s.sp.toNat).toNat + 1 ∧ (∀ r, r ≠ spIndex → t.reg r = s.reg r) ∧
      t = { s with regs := t.regs, pc := s.pc + 2 }) ∧
    (8 ≤ ra.toNat → exec (.pop ra) s = .next (abortedFrom s (.registerIndex ra))) ∧
    (ra.toNat < 8 → ra.toNat ≠ spIndex.val → s.sp.toNat = 255 →
      exec (.pop ra) s = .next (abortedFrom s (.stackBounds .pop))) ∧
    (ra.toNat = spIndex.val → (s.cell s.sp.toNat).toNat = 255 →
      exec (.pop ra) s = .next (abortedFrom s (.stackBounds .pop)))

/-- `JMP ra` (45_compare_branch.md R71, R74): `pc` is the register's value, not advanced. Opcode byte D7. -/
def Obligations.JmpSetsPcFromRegister : Prop :=
  ∀ (ra : Byte) (s : State),
    encode (.jmp ra) = [0x54, ra] ∧
    (∀ h : ra.toNat < 8, ∃ p : PcWord, p.toNat = (s.regs[ra.toNat]'h).toNat ∧
      exec (.jmp ra) s = .next { s with pc := p }) ∧
    (8 ≤ ra.toNat → exec (.jmp ra) s = .next (abortedFrom s (.registerIndex ra)))

/-- `CMP ra, rb` (45_compare_branch.md R70): all three flags written from the unsigned values (D2), whatever they held;
exactly one is set. Opcode byte D7. -/
def Obligations.CmpSetsExactlyOneFlag : Prop :=
  ∀ (ra rb : Byte) (s : State),
    encode (.cmp ra rb) = [0xA7, ra, rb] ∧
    (∀ (h : ra.toNat < 8) (h' : rb.toNat < 8), ∃ f : Flags,
      exec (.cmp ra rb) s = .next { s with flags := f, pc := s.pc + 3 } ∧
      (f.e = true ↔ (s.regs[ra.toNat]'h).toNat = (s.regs[rb.toNat]'h').toNat) ∧
      (f.l = true ↔ (s.regs[ra.toNat]'h).toNat < (s.regs[rb.toNat]'h').toNat) ∧
      (f.g = true ↔ (s.regs[rb.toNat]'h').toNat < (s.regs[ra.toNat]'h).toNat) ∧
      f.exactlyOne = true) ∧
    (8 ≤ ra.toNat → exec (.cmp ra rb) s = .next (abortedFrom s (.registerIndex ra))) ∧
    (ra.toNat < 8 → 8 ≤ rb.toNat → exec (.cmp ra rb) s = .next (abortedFrom s (.registerIndex rb)))

/-- `JEQ ra` (45_compare_branch.md R72): the index is checked taken or not (D10). Opcode byte D7. -/
def Obligations.JeqJumpsExactlyWhenEqual : Prop :=
  ∀ (ra : Byte) (s : State),
    encode (.jeq ra) = [0x55, ra] ∧
    (∀ h : ra.toNat < 8,
      (s.flags.e = true → ∃ p : PcWord, p.toNat = (s.regs[ra.toNat]'h).toNat ∧
        exec (.jeq ra) s = .next { s with pc := p }) ∧
      (s.flags.e = false → exec (.jeq ra) s = .next { s with pc := s.pc + 2 })) ∧
    (8 ≤ ra.toNat → exec (.jeq ra) s = .next (abortedFrom s (.registerIndex ra)))

/-- `JNE ra` (45_compare_branch.md R73): the test is on `FL.E` alone; the index is checked taken or not (D10). Opcode byte
D7. -/
def Obligations.JneJumpsExactlyWhenNotEqual : Prop :=
  ∀ (ra : Byte) (s : State),
    encode (.jne ra) = [0x56, ra] ∧
    (∀ h : ra.toNat < 8,
      (s.flags.e = false → ∃ p : PcWord, p.toNat = (s.regs[ra.toNat]'h).toNat ∧
        exec (.jne ra) s = .next { s with pc := p }) ∧
      (s.flags.e = true → exec (.jne ra) s = .next { s with pc := s.pc + 2 })) ∧
    (8 ≤ ra.toNat → exec (.jne ra) s = .next (abortedFrom s (.registerIndex ra)))

/-! ### The ALU and the optional ADD -/

/-- The ALU block (42_alu.md R61, R62): add and multiply modulo 256 (D1) into the first register and nothing else; any
other operation is an abort (D13); a bad index is reported before it, the first operand's first (D17). -/
def Obligations.AluAddsMultipliesRejectsOthers : Prop :=
  ∀ (ra rb : Byte) (s : State),
    (∀ (h : ra.toNat < 8) (h' : rb.toNat < 8),
      (∃ v : Byte, v.toNat = ((s.regs[ra.toNat]'h).toNat + (s.regs[rb.toNat]'h').toNat) % 256 ∧
        alu .add ra rb s = .ok { s with regs := s.regs.set ra.toNat v h }) ∧
      (∃ v : Byte, v.toNat = ((s.regs[ra.toNat]'h).toNat * (s.regs[rb.toNat]'h').toNat) % 256 ∧
        alu .mul ra rb s = .ok { s with regs := s.regs.set ra.toNat v h }) ∧
      (∀ n, alu (.other n) ra rb s = .error (.aluUnsupported (.other n)))) ∧
    (∀ op, 8 ≤ ra.toNat → alu op ra rb s = .error (.registerIndex ra)) ∧
    (∀ op, ra.toNat < 8 → 8 ≤ rb.toNat → alu op ra rb s = .error (.registerIndex rb))

/-- 42_alu.md R64 (decision D12, log entry 14): with `ADD_DISPATCHED` set the byte 0xA0 runs ADD and every other byte runs
as before; with the default it is unrecognized. -/
def Obligations.OptionalAddOnlyWhenDispatched : Prop :=
  ∀ s : State, s.run = .running → s.pc.toNat ≤ 253 →
    (s.cell s.pc.toNat ≠ 0xA0 → stepWith true s = step s) ∧
    (s.cell s.pc.toNat = 0xA0 →
      step s = .next (faultedFrom s 0xA0) ∧
      (∀ (h : (s.cell (s.pc.toNat + 1)).toNat < 8) (h' : (s.cell (s.pc.toNat + 2)).toNat < 8), ∃ v : Byte,
        v.toNat = ((s.reg ⟨_, h⟩).toNat + (s.reg ⟨_, h'⟩).toNat) % 256 ∧
        stepWith true s = .next { s with regs := s.regs.set (s.cell (s.pc.toNat + 1)).toNat v h, pc := s.pc + 3 }) ∧
      (8 ≤ (s.cell (s.pc.toNat + 1)).toNat →
        stepWith true s = .next (abortedFrom s (.registerIndex (s.cell (s.pc.toNat + 1))))) ∧
      ((s.cell (s.pc.toNat + 1)).toNat < 8 → 8 ≤ (s.cell (s.pc.toNat + 2)).toNat →
        stepWith true s = .next (abortedFrom s (.registerIndex (s.cell (s.pc.toNat + 2))))))

/-! ### The sequencer -/

/-- 40_sequencer.md R54 to R57: when the three cells at `pc` decode to an instruction, the step of a running machine is
that instruction's handler in that state; the sequencer adds nothing to `pc` and changes nothing. -/
def Obligations.StepRunsTheDecodedInstruction : Prop :=
  ∀ (s : State) (i : Instr) (rest : List Byte), s.run = .running → s.pc.toNat ≤ 253 →
    decode [s.cell s.pc.toNat, s.cell (s.pc.toNat + 1), s.cell (s.pc.toNat + 2)] = .ok (i, rest) →
    step s = exec i s

/-- 40_sequencer.md R55 (decision D8): a fetch past the end of memory aborts with the first address out of range, whatever
the cell at `pc` holds. -/
def Obligations.FetchPastMemoryEndAborts : Prop :=
  ∀ s : State, s.run = .running →
    (s.pc.toNat = 254 → step s = .next (abortedFrom s (.memoryBounds 256))) ∧
    (s.pc.toNat = 255 → step s = .next (abortedFrom s (.memoryBounds 256))) ∧
    (256 ≤ s.pc.toNat → step s = .next (abortedFrom s (.memoryBounds s.pc.toNat)))

/-- 30_encoding.md R47, R48, 60_exceptions.md R76: a byte that is none of the ten ends the run in `Faulted`, with a
diagnostic and nothing else changed; every byte of 0xC0 and above is such a byte. The byte values are decision D7. -/
def Obligations.UnrecognizedByteFaults : Prop :=
  ∀ s : State, s.run = .running → s.pc.toNat ≤ 253 →
    (s.cell s.pc.toNat ∉ ([0x82, 0x47, 0xA2, 0x01, 0x45, 0x46, 0x54, 0xA7, 0x55, 0x56] : List Byte) →
      step s = .next (faultedFrom s (s.cell s.pc.toNat))) ∧
    (0xC0 ≤ (s.cell s.pc.toNat).toNat → step s = .next (faultedFrom s (s.cell s.pc.toNat)))

/-- 40_sequencer.md R54, 10_state.md R21: the machine has a step exactly when it is running; in a terminal run state it has
none, and the fault says which; a handler always answers a next state (log entries 1 and 2). -/
def Obligations.StepExistsExactlyWhileRunning : Prop :=
  (∀ s : State, s.run = .running ↔ ∃ t, step s = .next t) ∧
  (∀ s : State, s.run = .halted ↔ step s = .fault .halted) ∧
  (∀ (s : State) (op : Byte), s.run = .faulted op ↔ step s = .fault (.faulted op)) ∧
  (∀ (s : State) (c : AbortCause), s.run = .aborted c ↔ step s = .fault (.aborted c)) ∧
  (∀ (i : Instr) (s : State), ∃ t, exec i s = .next t)

/-- The model's own (log entry 18): an instruction placed by `withFetchWord` is the one the next step runs, and placing it
changes no register, no flag, no output and no cell but the three; nor `run` and `pc` where the machine could fetch. -/
def Obligations.PlacedInstructionIsTheNextRun : Prop :=
  ∀ (s : State) (nbits w : Nat) (i : Instr), Memory.wf s.mem = true → decodeTableWord nbits w = some i →
    step (s.withFetchWord nbits w) = exec i (s.withFetchWord nbits w) ∧
    (s.withFetchWord nbits w).regs = s.regs ∧ (s.withFetchWord nbits w).flags = s.flags ∧
    (s.withFetchWord nbits w).out = s.out ∧
    (s.run = .running → s.pc.toNat ≤ 253 →
      (s.withFetchWord nbits w).run = s.run ∧ (s.withFetchWord nbits w).pc = s.pc ∧
      ∀ a, a < s.pc.toNat ∨ s.pc.toNat + 2 < a → (s.withFetchWord nbits w).cell a = s.cell a)

/-! ### Frames: what an instruction leaves unchanged when it answers a next state -/

/-- LDI, MUL and POP write their destination register and `pc`, POP also the stack pointer (10_state.md R14, R16): every
other register, every flag, every cell, the run state and the output stay; or the instruction aborts and only `run` and
`out` change. -/
def Obligations.RegisterWritersFrame : Prop :=
  ∀ (ra b : Byte) (i : Instr) (s t : State), i = .ldi ra b ∨ i = .mul ra b ∨ i = .pop ra → exec i s = .next t →
    (∀ a, t.cell a = s.cell a) ∧ t.flags = s.flags ∧
    ((∃ c, t = abortedFrom s c) ∨
      (t.run = s.run ∧ t.out = s.out ∧
        ∀ r : RegIx, r.val ≠ ra.toNat → (i = .pop ra → r ≠ spIndex) → t.reg r = s.reg r))

/-- PRN, HLT, JMP, JEQ, JNE and CMP write no register and no cell (10_state.md R14); of them only CMP writes a flag (R19),
only HLT the run state and only PRN and HLT the output, unless the instruction aborts, when only `run` and `out` change. -/
def Obligations.NonRegisterWritersFrame : Prop :=
  ∀ (ra rb : Byte) (i : Instr) (s t : State),
    i = .prn ra ∨ i = .hlt ∨ i = .jmp ra ∨ i = .jeq ra ∨ i = .jne ra ∨ i = .cmp ra rb → exec i s = .next t →
    (∀ r, t.reg r = s.reg r) ∧ (∀ a, t.cell a = s.cell a) ∧
    (i ≠ .cmp ra rb → t.flags = s.flags) ∧
    ((∃ c, t = abortedFrom s c) ∨
      ((i ≠ .hlt → t.run = s.run) ∧ (i ≠ .hlt → i ≠ .prn ra → t.out = s.out)))

/-- PUSH stores one byte, at the address its meaning computes (20_memory.md R34): every other cell reads as before; every
register but the stack pointer, every flag, the run state and the output stay, unless the instruction aborts, when only
`run` and `out` change. -/
def Obligations.PushFrame : Prop :=
  ∀ (ra : Byte) (s t : State), Memory.wf s.mem = true → exec (.push ra) s = .next t →
    (∀ a, pushAddress s = a → ∀ b, b ≠ a → t.cell b = s.cell b) ∧
    (∀ r, r ≠ spIndex → t.reg r = s.reg r) ∧ t.flags = s.flags ∧
    ((∃ c, t = abortedFrom s c) ∨ (t.run = s.run ∧ t.out = s.out))

/-! ### Rules of the whole machine -/

/-- 10_state.md R19. Writers: a step that changes a flag is a completed CMP, and a completed CMP leaves flags that do not
depend on the old ones. Readers: replacing the flags before a step changes nothing but the flags after it, as long as
`FL.E` is kept or the instruction is neither JEQ nor JNE; those two read `FL.E`. -/
def Obligations.FlagsWrittenByCmpReadByConditionalJumps : Prop :=
  (∀ s t : State, step s = .next t → t.flags ≠ s.flags → s.cell s.pc.toNat = opcCmp ∧ t.run = .running) ∧
  (∀ (s t : State) (f : Flags), step s = .next t →
    f.e = s.flags.e ∨ (s.cell s.pc.toNat ≠ opcJeq ∧ s.cell s.pc.toNat ≠ opcJne) →
    ∃ g, step { s with flags := f } = .next { t with flags := g } ∧
      ((s.cell s.pc.toNat = opcCmp ∧ t.run = .running ∧ s.pc.toNat ≤ 253 → g = t.flags ∧ g.exactlyOne = true) ∧
       (¬ (s.cell s.pc.toNat = opcCmp ∧ t.run = .running) → g = f))) ∧
  (∀ (ra : Byte) (s : State) (f : Flags) (h : ra.toNat < 8),
    exec (.jeq ra) { s with flags := f } =
      .next { s with flags := f, pc := if f.e then (s.reg ⟨ra.toNat, h⟩).setWidth 9 else s.pc + 2 } ∧
    exec (.jne ra) { s with flags := f } =
      .next { s with flags := f, pc := if f.e then s.pc + 2 else (s.reg ⟨ra.toNat, h⟩).setWidth 9 })

/-- 20_memory.md R34: a step that changes a cell is a completed PUSH, and the cell is the one below the old stack
pointer. -/
def Obligations.OnlyPushChangesMemory : Prop :=
  ∀ (s t : State) (a : Nat), Memory.wf s.mem = true → step s = .next t → t.cell a ≠ s.cell a →
    s.cell s.pc.toNat = opcPush ∧ a + 1 = s.sp.toNat ∧ t.sp.toNat = a ∧ t.run = .running

/-- 10_state.md R21, R22: the run state and the output move together: a step appends at most one event, a `Print` by PRN, a
`HaltNotice` when and only when it halts, a diagnostic when and only when it faults or aborts. -/
def Obligations.RunStateAndOutputMoveTogether : Prop :=
  ∀ s t : State, step s = .next t →
    (t.run = .running ∧ t.out = s.out ∧ s.cell s.pc.toNat ≠ opcPrn) ∨
    (∃ r : RegIx, (s.cell (s.pc.toNat + 1)).toNat = r.val ∧ s.cell s.pc.toNat = opcPrn ∧ t.run = .running ∧
      t.out = s.out ++ [.print (s.reg r)]) ∨
    (s.cell s.pc.toNat = opcHlt ∧ t.run = .halted ∧ t.out = s.out ++ [.haltNotice]) ∨
    (t.run = .faulted (s.cell s.pc.toNat) ∧ t.out = s.out ++ [.diag (s.cell s.pc.toNat)]) ∨
    (∃ c, t.run = .aborted c ∧ t.out = s.out ++ [.abortDiag c])

/-- 10_state.md R16 (90_conflicts.md C7): where a step completes, `pc` goes up by one and the operand count, or is the
value of the register a jump names; it never wraps (R17). Where no handler completes it stays (D9). -/
def Obligations.PcMovesAsTabled : Prop :=
  ∀ s t : State, step s = .next t →
    ((t.run = .running ∨ t.run = .halted) → s.pc.toNat ≤ 253 ∧
      (t.pc.toNat = s.pc.toNat + 1 + (s.cell s.pc.toNat >>> 6).toNat ∨
        (s.cell s.pc.toNat ∈ [opcJmp, opcJeq, opcJne] ∧
          ∃ r : RegIx, (s.cell (s.pc.toNat + 1)).toNat = r.val ∧ t.pc.toNat = (s.reg r).toNat))) ∧
    (s.cell s.pc.toNat = opcJmp → t.run = .running →
      ∃ r : RegIx, (s.cell (s.pc.toNat + 1)).toNat = r.val ∧ t.pc.toNat = (s.reg r).toNat) ∧
    (¬ (t.run = .running ∨ t.run = .halted) → t.pc = s.pc)

/-- 60_exceptions.md R87 (an inference the spec marks as its own): every fault and abort is precise: only `run` and one
diagnostic are new. -/
def Obligations.FaultsAndAbortsArePrecise : Prop :=
  ∀ s t : State, step s = .next t →
    (∀ op, t.run = .faulted op → t = faultedFrom s op) ∧ (∀ c, t.run = .aborted c → t = abortedFrom s c)

/-- 60_exceptions.md R75, R78 to R81, R84 (decisions D8, D10, D11, D13, D17): the cause an abort reports is there in the
state before it, and no cause earlier in the order of R84 is. -/
def Obligations.AbortReportsTheFirstCause : Prop :=
  ∀ (s t : State) (c : AbortCause), step s = .next t → t.run = .aborted c →
    match c with
    | .memoryBounds a => 254 ≤ s.pc.toNat ∧ a = max 256 s.pc.toNat
    | .registerIndex i =>
      s.pc.toNat ≤ 253 ∧ recognized (s.cell s.pc.toNat) = true ∧ 8 ≤ i.toNat ∧
        ((s.cell s.pc.toNat ≠ opcHlt ∧ i = s.cell (s.pc.toNat + 1)) ∨
          (s.cell s.pc.toNat ∈ [opcMul, opcCmp] ∧ (s.cell (s.pc.toNat + 1)).toNat < 8 ∧ i = s.cell (s.pc.toNat + 2)))
    | .stackBounds .push =>
      s.pc.toNat ≤ 253 ∧ s.cell s.pc.toNat = opcPush ∧ (s.cell (s.pc.toNat + 1)).toNat < 8 ∧ s.sp.toNat = 0
    | .stackBounds .pop =>
      s.pc.toNat ≤ 253 ∧ s.cell s.pc.toNat = opcPop ∧ (s.cell (s.pc.toNat + 1)).toNat < 8 ∧
        (if (s.cell (s.pc.toNat + 1)).toNat = spIndex.val then (s.cell s.sp.toNat).toNat = 255 else s.sp.toNat = 255)
    | .aluUnsupported _ => False

/-- 60_exceptions.md R78, R84 items 5 and 6 (decisions D10, D17): an instruction aborts on the first register operand that
names no register, and on no index at all exactly when it is well formed. -/
def Obligations.IndexAbortIsIllFormedness : Prop :=
  ∀ (i : Instr) (s : State),
    (∀ k, i.regOperands.find? (fun b => !isRegister b) = some k →
      exec i s = .next (abortedFrom s (.registerIndex k))) ∧
    (∀ k, i.wf = true → s.run = .running → exec i s ≠ .next (abortedFrom s (.registerIndex k)))

/-! ### Sequences of instructions -/

/-- 41_load_print.md R60, property of the source: LDI followed by PRN on the same register emits the immediate, for every
register and every immediate. -/
def Obligations.LdiThenPrnEmitsTheImmediate : Prop :=
  ∀ (s : State) (k v : Byte), k.toNat < 8 → s.run = .running → s.pc.toNat ≤ 250 →
    s.cell s.pc.toNat = opcLdi → s.cell (s.pc.toNat + 1) = k → s.cell (s.pc.toNat + 2) = v →
    s.cell (s.pc.toNat + 3) = opcPrn → s.cell (s.pc.toNat + 4) = k →
    ∃ t u, step s = .next t ∧ step t = .next u ∧ u.out = s.out ++ [.print v] ∧ u.run = .running ∧
      u.pc.toNat = s.pc.toNat + 5

/-- 44_stack.md R69 (an inference the spec marks as its own): PUSH then POP, same or different register, restores the
stack pointer and yields exactly the value pushed; so does the pair on the stack pointer itself. -/
def Obligations.PushThenPopRestoresStackPointer : Prop :=
  ∀ (ra rb : Byte) (s : State) (_ : ra.toNat < 8) (hb : rb.toNat < 8), Memory.wf s.mem = true → s.sp.toNat ≠ 0 →
    ((rb.toNat ≠ spIndex.val ∨ ra = rb) →
      ∃ t u, exec (.push ra) s = .next t ∧ exec (.pop rb) t = .next u ∧ u.sp = s.sp ∧
        (∀ r : RegIx, r.val ≠ rb.toNat → u.reg r = s.reg r) ∧
        (rb.toNat ≠ spIndex.val → ∀ r : RegIx, r.val = ra.toNat → u.reg ⟨rb.toNat, hb⟩ = t.reg r) ∧
        (∀ r : RegIx, r.val = ra.toNat → ra.toNat ≠ spIndex.val → t.reg r = s.reg r))

/-- 44_stack.md R69, for any sequence (the conditions are an inference the spec marks as its own): registers pushed one after
another, the stack pointer among them, and popped in the opposite order hold again what they held before the first push,
whatever was done to the registers in between, as long as the stack pointer and the pushed cells were left alone; the stack pointer
comes back too. Decisions D3, D11. -/
def Obligations.PushedRegistersComeBackInReverse : Prop :=
  ∀ (rs : List Byte) (s : State), (∀ r ∈ rs, r.toNat < 8) → Memory.wf s.mem = true →
    rs.length ≤ s.sp.toNat →
    ∃ t, execAll (rs.map .push) s = .next t ∧ t.sp.toNat + rs.length = s.sp.toNat ∧ t.run = s.run ∧
      ∀ t' : State, t'.sp = t.sp → (∀ a, t.sp.toNat ≤ a → a < s.sp.toNat → t'.cell a = t.cell a) →
        ∃ u, execAll (rs.reverse.map .pop) t' = .next u ∧ u.sp = s.sp ∧ u.run = t'.run ∧
          (∀ q : RegIx, (∃ r ∈ rs, r.toNat = q.val) → u.reg q = s.reg q) ∧
          (∀ q : RegIx, (∀ r ∈ rs, r.toNat ≠ q.val) → q ≠ spIndex → u.reg q = t'.reg q) ∧
          (∀ a, u.cell a = t'.cell a)

/-- 20_memory.md R39 (an inference the spec marks as its own): a byte pushed onto the next instruction's opcode cell is the
opcode the next step runs. -/
def Obligations.PushedByteIsTheNextOpcode : Prop :=
  ∀ (s : State) (h : (s.cell (s.pc.toNat + 1)).toNat < 8), Memory.wf s.mem = true → s.run = .running →
    s.pc.toNat ≤ 251 → s.cell s.pc.toNat = opcPush → (s.cell (s.pc.toNat + 1)).toNat ≠ spIndex.val →
    s.sp.toNat = s.pc.toNat + 3 →
    ∃ t, step s = .next t ∧ t.pc.toNat = s.pc.toNat + 2 ∧
      (∀ i, decodeSlot (s.reg ⟨_, h⟩) (s.cell (s.pc.toNat + 3)) (s.cell (s.pc.toNat + 4)) = some i →
        step t = exec i t) ∧
      (recognized (s.reg ⟨_, h⟩) = false → step t = .next (faultedFrom t (s.reg ⟨_, h⟩)))

/-- 45_compare_branch.md R74, 40_sequencer.md R55 (decision D8): a jump accepts any value, 254 and 255 among them; the jump
itself completes and it is the next step's fetch that aborts. -/
def Obligations.JumpPastTheLastSlotAbortsNext : Prop :=
  ∀ (s : State) (h : (s.cell (s.pc.toNat + 1)).toNat < 8), s.run = .running → s.pc.toNat ≤ 253 →
    254 ≤ (s.reg ⟨_, h⟩).toNat →
    s.cell s.pc.toNat = opcJmp ∨ (s.cell s.pc.toNat = opcJeq ∧ s.flags.e = true) ∨
      (s.cell s.pc.toNat = opcJne ∧ s.flags.e = false) →
    ∃ t, step s = .next t ∧ t.run = .running ∧ t.pc.toNat = (s.reg ⟨_, h⟩).toNat ∧
      step t = .next (abortedFrom t (.memoryBounds 256))

/-! ### Loading -/

/-- 70_reset_and_hazards.md R95: an image of at most 256 bytes is placed from address 0 upward, the cells after it keep 0,
nothing else of the reset state changes; the empty image is legal and its first step ends in `Faulted(0x00)`. -/
def Obligations.LoadPlacesTheImage : Prop :=
  (∀ image : List Byte, image.length ≤ 256 → ∃ s, loadImage image State.reset = .ok s ∧
    (∀ k b, image[k]? = some b → s.cell k = b) ∧ (∀ a, image.length ≤ a → s.cell a = 0) ∧
    s = { State.reset with mem := s.mem }) ∧
  (∃ s, loadImage [] State.reset = .ok s ∧ step s = .next (faultedFrom s 0x00))

/-- 30_encoding.md R43, 40_sequencer.md R55, R56, 70_reset_and_hazards.md R95: where memory is as the load of an encoded
program left it, a step at the offset of an instruction of the program runs that instruction. -/
def Obligations.LoadedProgramRunsItsInstructions : Prop :=
  ∀ (before next : List Instr) (i : Instr) (loaded s : State),
    loadImage ((before ++ i :: next).flatMap encode) State.reset = .ok loaded → s.mem = loaded.mem →
    s.run = .running → s.pc.toNat = (before.flatMap encode).length → s.pc.toNat ≤ 253 →
    step s = exec i s

/-- 70_reset_and_hazards.md R97 (decision D15): an image over 256 bytes is refused; so is a text in which some line's
remainder is a numeral of 9 or more digits, whatever white space and comment stand around it, and a text whose lines yield
more than 256 bytes; no state comes of it. The names of the refusals, and that a numeral too long is reported where the
image is too long as well, are the model's choice (log entry 17). -/
def Obligations.OversizeImageRefused : Prop :=
  (∀ (image : List Byte) (s : State), 256 < image.length → loadImage image s = .error (.imageTooLong image.length)) ∧
  (∀ (before after : List (List Char)) (line numeral : List Char) (s : State), LineRemainder line numeral →
    IsNumeral numeral → 9 ≤ numeral.length → loadText (before ++ line :: after) s = .error .numeralTooLong) ∧
  (∀ (lines : List (List Char)) (s : State), (∀ line ∈ lines, parseLine line ≠ .refused) →
    256 < lines.countP yieldsByte → loadText lines s = .error (.imageTooLong (lines.countP yieldsByte)))

/-- 70_reset_and_hazards.md R96, R97 (decision D15; which characters are white space is log entry 17), for every line: it
has a remainder, and a remainder of 1 to 8 binary digits yields the byte the digits write, most significant first; one of 9
or more is refused; an empty one, and one that holds a character that is no binary digit (white space between two digits
too), is skipped. -/
def Obligations.ImageLineYieldsItsByte : Prop :=
  (∀ line : List Char, ∃ r, LineRemainder line r) ∧
  (∀ line r : List Char, LineRemainder line r →
    (IsNumeral r → r.length ≤ 8 → ∃ b : Byte, parseLine line = .byte b ∧
      ∀ k, b.getLsbD k = true ↔ r.reverse[k]? = some '1') ∧
    (IsNumeral r → 9 ≤ r.length → parseLine line = .refused) ∧
    (r = [] ∨ (∃ c ∈ r, c ≠ '0' ∧ c ≠ '1') → parseLine line = .skipped))

/-- 70_reset_and_hazards.md R96, R95: a text none of whose lines is refused and whose lines yield at most 256 bytes loads;
each accepted line's byte stands at the address that is the number of accepted lines before it, the cells after the last
keep 0, and nothing of the reset state but memory changes; a skipped line might as well not be there. What a line yields
rests on decision D15. -/
def Obligations.TextLoadsItsLinesInOrder : Prop :=
  (∀ lines : List (List Char), (∀ line ∈ lines, parseLine line ≠ .refused) → lines.countP yieldsByte ≤ 256 →
    ∃ s, loadText lines State.reset = .ok s ∧ s = { State.reset with mem := s.mem } ∧
      (∀ (before after : List (List Char)) (line : List Char) (b : Byte), lines = before ++ line :: after →
        parseLine line = .byte b → s.cell (before.countP yieldsByte) = b) ∧
      (∀ a, lines.countP yieldsByte ≤ a → s.cell a = 0)) ∧
  (∀ (before after : List (List Char)) (line : List Char) (s : State), parseLine line = .skipped →
    loadText (before ++ line :: after) s = loadText (before ++ after) s)

/-! ### Invariants and runs -/

/-- The reset state, and the reset state with any image that is not refused, meet the invariant. -/
def Obligations.LoadedStateMeetsTheInvariant : Prop :=
  State.reset.Inv ∧ ∀ (image : List Byte) (s : State), loadImage image State.reset = .ok s → s.Inv

/-- Every step keeps the invariant: canonical memory, `pc` at most 256, flags one-hot or all clear, and an end of the run
that its state and its output show (10_state.md R15, R18, R21, 70_reset_and_hazards.md R100). -/
def Obligations.EveryStepKeepsTheInvariant : Prop :=
  ∀ s t : State, s.Inv → step s = .next t → t.Inv

/-- 10_state.md R18: once exactly one flag is set, exactly one is set after every step. -/
def Obligations.OneFlagStaysSet : Prop :=
  ∀ s t : State, s.flags.exactlyOne = true → step s = .next t → t.flags.exactlyOne = true

/-- 70_reset_and_hazards.md R100 (an inference the spec marks as its own), for every run of every image: a run that ended
shows how. Halted: `pc` is one past the HLT that ended it and the last event is the notice. Faulted or aborted: `pc` is at
the instruction that could not execute and the last event is the diagnostic. A fetch abort reports 256 and no other
address (60_exceptions.md R79), and no run reports an unsupported ALU operation (R81). -/
def Obligations.EndOfARunShowsItsCause : Prop :=
  ∀ (image : List Byte) (s : State), Reachable image s →
    s.pc.toNat ≤ 256 ∧ s.flags.legal = true ∧
    (s.run = .halted → s.out.getLast? = some .haltNotice ∧ 1 ≤ s.pc.toNat ∧ s.cell (s.pc.toNat - 1) = opcHlt) ∧
    (∀ op, s.run = .faulted op →
      s.out.getLast? = some (.diag op) ∧ s.cell s.pc.toNat = op ∧ recognized op = false) ∧
    (∀ c, s.run = .aborted c → s.out.getLast? = some (.abortDiag c)) ∧
    (∀ a, s.run = .aborted (.memoryBounds a) → a = 256 ∧ 254 ≤ s.pc.toNat) ∧
    (∀ op, s.run ≠ .aborted (.aluUnsupported op))
end

