-- ==== Sys2Proof/Laws/Decode.lean ====
section
/-! SUPPORT. Laws/Decode.lean: the slot decoder row by row, and what a decoded slot can be. -/
namespace Sys2Proof

/-! ### One lemma for each row (30_encoding.md R46) -/

theorem decodeSlot_ldi (a b : Byte) : decodeSlot opcLdi a b = some (.ldi a b) := rfl
theorem decodeSlot_prn (a b : Byte) : decodeSlot opcPrn a b = some (.prn a) := rfl
theorem decodeSlot_mul (a b : Byte) : decodeSlot opcMul a b = some (.mul a b) := rfl
theorem decodeSlot_hlt (a b : Byte) : decodeSlot opcHlt a b = some .hlt := rfl
theorem decodeSlot_push (a b : Byte) : decodeSlot opcPush a b = some (.push a) := rfl
theorem decodeSlot_pop (a b : Byte) : decodeSlot opcPop a b = some (.pop a) := rfl
theorem decodeSlot_jmp (a b : Byte) : decodeSlot opcJmp a b = some (.jmp a) := rfl
theorem decodeSlot_cmp (a b : Byte) : decodeSlot opcCmp a b = some (.cmp a b) := rfl
theorem decodeSlot_jeq (a b : Byte) : decodeSlot opcJeq a b = some (.jeq a) := rfl
theorem decodeSlot_jne (a b : Byte) : decodeSlot opcJne a b = some (.jne a) := rfl

/-- What a slot that decodes is: one of the ten rows. -/
theorem decodeSlot_cases {ir a b : Byte} {i : Instr} (h : decodeSlot ir a b = some i) :
    (ir = opcLdi ∧ i = .ldi a b) ∨ (ir = opcPrn ∧ i = .prn a) ∨ (ir = opcMul ∧ i = .mul a b) ∨
    (ir = opcHlt ∧ i = .hlt) ∨ (ir = opcPush ∧ i = .push a) ∨ (ir = opcPop ∧ i = .pop a) ∨
    (ir = opcJmp ∧ i = .jmp a) ∨ (ir = opcCmp ∧ i = .cmp a b) ∨ (ir = opcJeq ∧ i = .jeq a) ∨
    (ir = opcJne ∧ i = .jne a) := by
  unfold decodeSlot at h
  repeat' split at h
  all_goals cases h <;> simp_all

/-- A slot decodes exactly when its first byte is one of the ten, whatever the other two are (40_sequencer.md R56). -/
theorem decodeSlot_none_iff (ir a b : Byte) :
    decodeSlot ir a b = none ↔
      ir ∉ [opcLdi, opcPrn, opcMul, opcHlt, opcPush, opcPop, opcJmp, opcCmp, opcJeq, opcJne] := by
  unfold decodeSlot
  repeat' split
  all_goals simp_all

/-- The decoder on at least one byte, in terms of the slot decoder. -/
theorem decode_cons (ir : Byte) (rest : List Byte) :
    decode (ir :: rest) =
      match decodeSlot ir (rest.getD 0 0) (rest.getD 1 0) with
      | none => .error (.unrecognized ir)
      | some i =>
        if declaredCount ir ≤ rest.length then .ok (i, rest.drop (declaredCount ir))
        else .error (.truncated ir) := rfl

/-- What the decoder answers comes from the slot at the head of the bytes. -/
theorem decode_ok {ir : Byte} {rest r : List Byte} {i : Instr} (h : decode (ir :: rest) = .ok (i, r)) :
    decodeSlot ir (rest.getD 0 0) (rest.getD 1 0) = some i ∧ declaredCount ir ≤ rest.length ∧
      r = rest.drop (declaredCount ir) := by
  rw [decode_cons] at h
  split at h
  · cases h
  · next j hj =>
    split at h
    · next hl =>
      cases h
      exact ⟨hj, hl, rfl⟩
    · cases h

/-- The declared count of a byte is its quotient by 64 (30_encoding.md R44). -/
theorem declaredCount_eq (ir : Byte) : declaredCount ir = ir.toNat / 64 := by
  have := ir.isLt
  simp only [declaredCount, BitVec.extractLsb_toNat, Nat.shiftRight_eq_div_pow]
  omega

end Sys2Proof
end

