-- ==== Sys2Proof/Laws/Memory.lean ====
section
/-! SUPPORT. Laws/Memory.lean: read after write, the canonical form kept by every memory operation, and equal reads from
canonical memories being equal memories. -/
namespace Sys2Proof.Machine

@[simp] theorem memGet_nil (a : Nat) : memGet [] a = unlisted := rfl

/-- The canonical form of a memory with a first entry. -/
theorem memWfFrom_cons {lo k : Nat} {v : Byte} {m : List Host.Cell} :
    memWfFrom lo ((k, v) :: m) = true ↔ (lo ≤ k ∧ k < 256 ∧ v ≠ unlisted) ∧ memWfFrom (k + 1) m = true := by
  simp [memWfFrom, Config.memSize, and_assoc]

/-- An address below every listed one reads as unlisted. -/
theorem memGet_below {m : List Host.Cell} {lo a : Nat} (h : memWfFrom lo m = true) (ha : a < lo) :
    memGet m a = unlisted := by
  induction m generalizing lo with
  | nil => rfl
  | cons c m ih =>
    obtain ⟨k, v⟩ := c
    simp only [memWfFrom_cons] at h
    have hk : k ≠ a := by omega
    simp only [memGet, hk, if_false]
    exact ih h.2 (by omega)

/-- An address the machine does not have reads as unlisted. -/
theorem memGet_beyond {m : List Host.Cell} {lo a : Nat} (h : memWfFrom lo m = true) (ha : 256 ≤ a) :
    memGet m a = unlisted := by
  induction m generalizing lo with
  | nil => rfl
  | cons c m ih =>
    obtain ⟨k, v⟩ := c
    simp only [memWfFrom_cons] at h
    have hk : k ≠ a := by omega
    simp only [memGet, hk, if_false]
    exact ih h.2

theorem memGet_memCons (m : List Host.Cell) (a : Nat) (v : Byte) (b : Nat) (h : v = unlisted → memGet m a = unlisted) :
    memGet (memCons a v m) b = if b = a then v else memGet m b := by
  unfold memCons
  split
  · next hv =>
    split
    · next hb => rw [hb, h hv, hv]
    · rfl
  · simp only [memGet, eq_comm]

/-- Read after write (20_memory.md R33), on a canonical memory. -/
theorem memGet_memSetFrom {m : List Host.Cell} {lo : Nat} (h : memWfFrom lo m = true) (a : Nat) (v : Byte) (b : Nat) :
    memGet (memSet m a v) b = if b = a then v else memGet m b := by
  induction m generalizing lo with
  | nil => exact memGet_memCons [] a v b (fun _ => rfl)
  | cons c m ih =>
    obtain ⟨k, w⟩ := c
    simp only [memWfFrom_cons] at h
    simp only [memSet]
    split
    · next hka =>
      simp only [memGet, ih h.2]
      split <;> split <;> first | rfl | omega
    · split
      · next hka =>
        subst hka
        rw [memGet_memCons m k v b (fun _ => memGet_below h.2 (by omega))]
        simp only [memGet]
        split
        · rfl
        · next hb => rw [if_neg (Ne.symm hb)]
      · refine memGet_memCons _ a v b (fun _ => ?_)
        have hk : k ≠ a := by omega
        simp only [memGet, hk, if_false]
        exact memGet_below h.2 (by omega)

theorem memWfFrom_mono {m : List Host.Cell} {lo lo' : Nat} (h : memWfFrom lo m = true) (hl : lo' ≤ lo) :
    memWfFrom lo' m = true := by
  cases m with
  | nil => rfl
  | cons c m =>
    obtain ⟨k, v⟩ := c
    simp only [memWfFrom_cons] at h ⊢
    exact ⟨⟨by omega, h.1.2⟩, h.2⟩

theorem memWfFrom_memCons {m : List Host.Cell} {lo a : Nat} (v : Byte) (h : memWfFrom (a + 1) m = true) (hl : lo ≤ a)
    (ha : a < 256) : memWfFrom lo (memCons a v m) = true := by
  unfold memCons
  split
  · exact memWfFrom_mono h (by omega)
  · next hv =>
    simp only [memWfFrom_cons]
    exact ⟨⟨hl, ha, hv⟩, h⟩

theorem memWfFrom_memSet {m : List Host.Cell} {lo a : Nat} (v : Byte) (h : memWfFrom lo m = true) (hl : lo ≤ a)
    (ha : a < 256) : memWfFrom lo (memSet m a v) = true := by
  induction m generalizing lo with
  | nil => exact memWfFrom_memCons v rfl hl ha
  | cons c m ih =>
    obtain ⟨k, w⟩ := c
    have hc := h
    simp only [memWfFrom_cons] at h
    simp only [memSet]
    split
    · simp only [memWfFrom_cons]
      exact ⟨h.1, ih h.2 (by omega)⟩
    · split
      · next hka => exact memWfFrom_memCons v (hka ▸ h.2) hl ha
      · refine memWfFrom_memCons v ?_ hl ha
        simp only [memWfFrom_cons]
        exact ⟨⟨by omega, h.1.2⟩, h.2⟩

theorem Memory.wf_nil : Memory.wf [] = true := rfl

/-- A write to a cell of the machine keeps the canonical form. -/
theorem Memory.wf_memSet {m : List Host.Cell} {a : Nat} (v : Byte) (h : Memory.wf m = true) (ha : a < 256) :
    Memory.wf (memSet m a v) = true := memWfFrom_memSet v h (Nat.zero_le a) ha

/-- Read after write. -/
theorem Memory.get_memSet {m : List Host.Cell} (h : Memory.wf m = true) (a : Nat) (v : Byte) (b : Nat) :
    memGet (memSet m a v) b = if b = a then v else memGet m b := memGet_memSetFrom h a v b

/-- Storing a run of bytes inside the memory keeps the canonical form. -/
theorem Memory.wf_memSetAll {m : List Host.Cell} {a : Nat} {bs : List Byte} (h : Memory.wf m = true)
    (ha : a + bs.length ≤ 256) : Memory.wf (memSetAll m a bs) = true := by
  induction bs generalizing m a with
  | nil => exact h
  | cons b bs ih =>
    simp only [List.length_cons] at ha
    exact ih (Memory.wf_memSet b h (by omega)) (by omega)

/-- Reading after a run of bytes is stored. -/
theorem Memory.get_memSetAll {m : List Host.Cell} {a : Nat} {bs : List Byte} (h : Memory.wf m = true)
    (ha : a + bs.length ≤ 256) (b : Nat) :
    memGet (memSetAll m a bs) b = if a ≤ b ∧ b < a + bs.length then bs.getD (b - a) 0 else memGet m b := by
  induction bs generalizing m a with
  | nil =>
    have hn : ¬ (a ≤ b ∧ b < a + ([] : List Byte).length) := by simp
    simp only [memSetAll, hn, if_false]
  | cons c bs ih =>
    simp only [List.length_cons] at ha ⊢
    simp only [memSetAll]
    rw [ih (Memory.wf_memSet c h (by omega)) (by omega), Memory.get_memSet h]
    by_cases hab : b = a
    · subst hab; simp
    · have hba : b - a = (b - (a + 1)) + 1 ∨ b < a := by omega
      obtain hba | hba := hba
      · by_cases hin : a + 1 ≤ b ∧ b < a + 1 + bs.length
        · rw [if_pos hin, if_pos (by omega), hba, List.getD_cons_succ]
        · rw [if_neg hin, if_neg hab, if_neg (by omega)]
      · rw [if_neg (by omega), if_neg hab, if_neg (by omega)]

/-- The address a canonical memory lists first does not read as unlisted. -/
theorem memGet_head {k lo : Nat} {v : Byte} {m : List Host.Cell} (h : memWfFrom lo ((k, v) :: m) = true) :
    memGet ((k, v) :: m) k ≠ unlisted := by
  simp only [memWfFrom_cons] at h
  simpa [memGet] using h.1.2.2

theorem memory_ext_from {m n : List Host.Cell} {lo lo' : Nat} (hm : memWfFrom lo m = true) (hn : memWfFrom lo' n = true)
    (h : ∀ a, memGet m a = memGet n a) : m = n := by
  induction m generalizing n lo lo' with
  | nil =>
    cases n with
    | nil => rfl
    | cons c n => exact absurd (h c.1).symm (memGet_head hn)
  | cons c m ih =>
    obtain ⟨k, v⟩ := c
    cases n with
    | nil => exact absurd (h k) (memGet_head hm)
    | cons d n =>
      obtain ⟨j, w⟩ := d
      have hm' := hm
      have hn' := hn
      simp only [memWfFrom_cons] at hm' hn'
      have hkj : k = j := by
        by_contra hne
        obtain hlt | hlt := Nat.lt_or_gt_of_ne hne
        · refine memGet_head hm ((h k).trans ?_)
          simp only [memGet, Ne.symm hne, if_false]
          exact memGet_below hn'.2 (by omega)
        · refine memGet_head hn ((h j).symm.trans ?_)
          simp only [memGet, hne, if_false]
          exact memGet_below hm'.2 (by omega)
      subst hkj
      have hvw : v = w := by simpa [memGet] using h k
      have htail : ∀ a, memGet m a = memGet n a := by
        intro a
        by_cases hka : k = a
        · subst hka
          rw [memGet_below hm'.2 (by omega), memGet_below hn'.2 (by omega)]
        · simpa [memGet, hka] using h a
      rw [hvw, ih hm'.2 hn'.2 htail]

/-- Canonical memories that read the same everywhere are the same list. -/
theorem Memory.ext_of_wf {m n : List Host.Cell} (hm : Memory.wf m = true) (hn : Memory.wf n = true)
    (h : ∀ a, memGet m a = memGet n a) : m = n := memory_ext_from hm hn h

end Sys2Proof.Machine
end

