-- ==== Sys2Proof/Laws/Loader.lean ====
section
/-! SUPPORT. Laws/Loader.lean: what loading an image or a text can do, said once. -/
namespace Sys2Proof.Machine

theorem loadImage_fits {image : List Byte} (h : image.length ≤ 256) (s : State) :
    loadImage image s = .ok { s with mem := memSetAll s.mem 0 image } := if_pos h

theorem loadImage_too_long {image : List Byte} (h : 256 < image.length) (s : State) :
    loadImage image s = .error (.imageTooLong image.length) := if_neg (Nat.not_le.mpr h)

/-- A load that is not refused: only memory changes. -/
theorem loadImage_cases {image : List Byte} {s t : State} (h : loadImage image s = .ok t) :
    image.length ≤ 256 ∧ t = { s with mem := memSetAll s.mem 0 image } := by
  by_cases hl : image.length ≤ 256
  · rw [loadImage_fits hl] at h
    exact ⟨hl, (Except.ok.inj h).symm⟩
  · rw [loadImage_too_long (by omega)] at h
    cases h

/-- The line's text after the comment and the outer white space are gone is all that counts. -/
theorem parseLine_eq (line : List Char) :
    parseLine line =
      if (trim (stripComment line)).isEmpty || !(trim (stripComment line)).all isBinaryDigit then .skipped
      else if (trim (stripComment line)).length ≤ 8 then .byte (trunc8 (numeralValue (trim (stripComment line))))
      else .refused := rfl

/-- The loader's stripping and trimming find the line's remainder (R96). -/
theorem LineRemainder.trim_eq {line r : List Char} (h : LineRemainder line r) : trim (stripComment line) = r := by
  obtain ⟨before, after, tail, rfl, hb, ha, ht, hr, hends⟩ := h
  have hsharp : ('#' : Char).isWhitespace = false := by decide
  have hne : ∀ {cs : List Char}, (∀ c ∈ cs, c.isWhitespace = true) → ∀ c ∈ cs, (c != '#') = true := by
    intro cs hcs c hc
    have := hcs c hc
    simp only [bne_iff_ne]
    rintro rfl
    simp [hsharp] at this
  have hstrip : stripComment (before ++ r ++ after ++ tail) = before ++ r ++ after := by
    have hall : ∀ c ∈ before ++ r ++ after, (c != '#') = true := by
      intro c hc
      rcases List.mem_append.mp hc with hc | hc
      · rcases List.mem_append.mp hc with hc | hc
        · exact hne hb c hc
        · simp only [bne_iff_ne]; rintro rfl; exact hr hc
      · exact hne ha c hc
    have htail : tail.takeWhile (· != '#') = [] := by
      rcases ht with rfl | ht
      · rfl
      · obtain ⟨rest, rfl⟩ : ∃ rest, tail = '#' :: rest := by
          cases tail with
          | nil => cases ht
          | cons c rest => exact ⟨rest, by rw [Option.some.inj ht]⟩
        simp
    rw [stripComment, List.takeWhile_append_of_pos hall, htail, List.append_nil]
  rw [hstrip, trim, List.append_assoc, List.dropWhile_append_of_pos hb]
  cases r with
  | nil =>
    have := List.dropWhile_append_of_pos (l₂ := []) ha
    rw [List.append_nil] at this
    rw [List.nil_append, this]
    rfl
  | cons c cs =>
    have hc := hends c (.inl rfl)
    rw [List.cons_append, List.dropWhile_cons_of_neg (by simp [hc]), ← List.cons_append, List.reverse_append,
      List.dropWhile_append_of_pos (fun x hx => ha x (List.mem_reverse.mp hx))]
    have hlast := hends ((c :: cs).getLast (by simp)) (.inr (List.getLast?_eq_some_getLast (by simp)))
    have hrev : (c :: cs).reverse = (c :: cs).getLast (by simp) :: (c :: cs).dropLast.reverse := by
      conv => lhs; rw [← List.dropLast_append_getLast (l := c :: cs) (by simp)]
      simp
    rw [hrev, List.dropWhile_cons_of_neg (by simp [hlast]), ← hrev, List.reverse_reverse]

@[simp] theorem parseLines_nil : parseLines [] = .ok [] := rfl

theorem parseLines_cons_byte {line : List Char} {b : Byte} (h : parseLine line = .byte b) (rest : List (List Char)) :
    parseLines (line :: rest) = (parseLines rest).map (b :: ·) := by rw [parseLines, h]

theorem parseLines_cons_skipped {line : List Char} (h : parseLine line = .skipped) (rest : List (List Char)) :
    parseLines (line :: rest) = parseLines rest := by rw [parseLines, h]

theorem parseLines_cons_refused {line : List Char} (h : parseLine line = .refused) (rest : List (List Char)) :
    parseLines (line :: rest) = .error .numeralTooLong := by rw [parseLines, h]

/-- A text's lines are accepted, one byte for each line that yields one, unless one is refused (R96, R97). -/
theorem parseLines_cases (lines : List (List Char)) :
    (∃ image, parseLines lines = .ok image ∧ image.length = lines.countP yieldsByte ∧
      ∀ line ∈ lines, parseLine line ≠ .refused) ∨
    (parseLines lines = .error .numeralTooLong ∧ ∃ line ∈ lines, parseLine line = .refused) := by
  induction lines with
  | nil => exact .inl ⟨[], rfl, rfl, by simp⟩
  | cons line rest ih =>
    cases hl : parseLine line with
    | refused => exact .inr ⟨parseLines_cons_refused hl rest, line, by simp, hl⟩
    | skipped =>
      rw [parseLines_cons_skipped hl]
      rcases ih with ⟨image, he, hn, hr⟩ | ⟨he, l, hm, hr⟩
      · exact .inl ⟨image, he, by simp [yieldsByte, hl, hn], by simpa [hl] using hr⟩
      · exact .inr ⟨he, l, by simp [hm], hr⟩
    | byte b =>
      rw [parseLines_cons_byte hl]
      rcases ih with ⟨image, he, hn, hr⟩ | ⟨he, l, hm, hr⟩
      · exact .inl ⟨b :: image, by rw [he]; rfl, by simp [yieldsByte, hl, hn], by simpa [hl] using hr⟩
      · exact .inr ⟨by rw [he]; rfl, l, by simp [hm], hr⟩

/-- The lines of a text are read one after another. -/
theorem parseLines_append {a : List (List Char)} {image : List Byte} (h : parseLines a = .ok image)
    (b : List (List Char)) : parseLines (a ++ b) = (parseLines b).map (image ++ ·) := by
  induction a generalizing image with
  | nil =>
    cases Except.ok.inj h
    rw [List.nil_append]
    cases parseLines b <;> rfl
  | cons line rest ih =>
    cases hl : parseLine line with
    | refused => rw [parseLines_cons_refused hl] at h; cases h
    | skipped =>
      rw [parseLines_cons_skipped hl] at h
      rw [List.cons_append, parseLines_cons_skipped hl, ih h]
    | byte c =>
      rw [parseLines_cons_byte hl] at h
      rw [List.cons_append, parseLines_cons_byte hl]
      cases hr : parseLines rest with
      | error e => rw [hr] at h; cases h
      | ok tail =>
        rw [hr] at h
        cases Except.ok.inj h
        rw [ih hr]
        cases parseLines b <;> rfl

/-- A text loads as the image of its lines, unless a line is refused. -/
theorem loadText_eq (lines : List (List Char)) (s : State) :
    loadText lines s = (match parseLines lines with
      | .ok image => loadImage image s
      | .error e => .error e) := by
  rw [loadText]
  cases parseLines lines <;> rfl

end Sys2Proof.Machine
end

