-- ==== Sys2Proof/Laws/State.lean ====
section
/-! SUPPORT. Laws/State.lean: one lemma for each field after each update of the state. -/
namespace Sys2Proof.Machine

@[simp] theorem State.setReg_regs (s : State) (r : RegIx) (v : Byte) : (s.setReg r v).regs = s.regs.set r.val v := rfl
@[simp] theorem State.setReg_pc (s : State) (r : RegIx) (v : Byte) : (s.setReg r v).pc = s.pc := rfl
@[simp] theorem State.setReg_flags (s : State) (r : RegIx) (v : Byte) : (s.setReg r v).flags = s.flags := rfl
@[simp] theorem State.setReg_mem (s : State) (r : RegIx) (v : Byte) : (s.setReg r v).mem = s.mem := rfl
@[simp] theorem State.setReg_run (s : State) (r : RegIx) (v : Byte) : (s.setReg r v).run = s.run := rfl
@[simp] theorem State.setReg_out (s : State) (r : RegIx) (v : Byte) : (s.setReg r v).out = s.out := rfl
@[simp] theorem State.setReg_cell (s : State) (r : RegIx) (v : Byte) (a : Nat) : (s.setReg r v).cell a = s.cell a := rfl

@[simp] theorem State.setSp_regs (s : State) (v : Byte) : (s.setSp v).regs = s.regs.set spIndex.val v := rfl
@[simp] theorem State.setSp_pc (s : State) (v : Byte) : (s.setSp v).pc = s.pc := rfl
@[simp] theorem State.setSp_flags (s : State) (v : Byte) : (s.setSp v).flags = s.flags := rfl
@[simp] theorem State.setSp_mem (s : State) (v : Byte) : (s.setSp v).mem = s.mem := rfl
@[simp] theorem State.setSp_run (s : State) (v : Byte) : (s.setSp v).run = s.run := rfl
@[simp] theorem State.setSp_out (s : State) (v : Byte) : (s.setSp v).out = s.out := rfl
@[simp] theorem State.setSp_cell (s : State) (v : Byte) (a : Nat) : (s.setSp v).cell a = s.cell a := rfl

@[simp] theorem State.advance_regs (s : State) (k : PcWord) : (s.advance k).regs = s.regs := rfl
@[simp] theorem State.advance_pc (s : State) (k : PcWord) : (s.advance k).pc = s.pc + k := rfl
@[simp] theorem State.advance_flags (s : State) (k : PcWord) : (s.advance k).flags = s.flags := rfl
@[simp] theorem State.advance_mem (s : State) (k : PcWord) : (s.advance k).mem = s.mem := rfl
@[simp] theorem State.advance_run (s : State) (k : PcWord) : (s.advance k).run = s.run := rfl
@[simp] theorem State.advance_out (s : State) (k : PcWord) : (s.advance k).out = s.out := rfl
@[simp] theorem State.advance_reg (s : State) (k : PcWord) (q : RegIx) : (s.advance k).reg q = s.reg q := rfl
@[simp] theorem State.advance_sp (s : State) (k : PcWord) : (s.advance k).sp = s.sp := rfl
@[simp] theorem State.advance_cell (s : State) (k : PcWord) (a : Nat) : (s.advance k).cell a = s.cell a := rfl

@[simp] theorem State.jumpTo_regs (s : State) (v : Byte) : (s.jumpTo v).regs = s.regs := rfl
@[simp] theorem State.jumpTo_pc (s : State) (v : Byte) : (s.jumpTo v).pc = zext9 v := rfl
@[simp] theorem State.jumpTo_flags (s : State) (v : Byte) : (s.jumpTo v).flags = s.flags := rfl
@[simp] theorem State.jumpTo_mem (s : State) (v : Byte) : (s.jumpTo v).mem = s.mem := rfl
@[simp] theorem State.jumpTo_run (s : State) (v : Byte) : (s.jumpTo v).run = s.run := rfl
@[simp] theorem State.jumpTo_out (s : State) (v : Byte) : (s.jumpTo v).out = s.out := rfl
@[simp] theorem State.jumpTo_reg (s : State) (v : Byte) (q : RegIx) : (s.jumpTo v).reg q = s.reg q := rfl
@[simp] theorem State.jumpTo_sp (s : State) (v : Byte) : (s.jumpTo v).sp = s.sp := rfl
@[simp] theorem State.jumpTo_cell (s : State) (v : Byte) (a : Nat) : (s.jumpTo v).cell a = s.cell a := rfl

@[simp] theorem State.setFlags_regs (s : State) (f : Flags) : (s.setFlags f).regs = s.regs := rfl
@[simp] theorem State.setFlags_pc (s : State) (f : Flags) : (s.setFlags f).pc = s.pc := rfl
@[simp] theorem State.setFlags_flags (s : State) (f : Flags) : (s.setFlags f).flags = f := rfl
@[simp] theorem State.setFlags_mem (s : State) (f : Flags) : (s.setFlags f).mem = s.mem := rfl
@[simp] theorem State.setFlags_run (s : State) (f : Flags) : (s.setFlags f).run = s.run := rfl
@[simp] theorem State.setFlags_out (s : State) (f : Flags) : (s.setFlags f).out = s.out := rfl
@[simp] theorem State.setFlags_reg (s : State) (f : Flags) (q : RegIx) : (s.setFlags f).reg q = s.reg q := rfl
@[simp] theorem State.setFlags_sp (s : State) (f : Flags) : (s.setFlags f).sp = s.sp := rfl
@[simp] theorem State.setFlags_cell (s : State) (f : Flags) (a : Nat) : (s.setFlags f).cell a = s.cell a := rfl

@[simp] theorem State.setRun_regs (s : State) (r : RunState) : (s.setRun r).regs = s.regs := rfl
@[simp] theorem State.setRun_pc (s : State) (r : RunState) : (s.setRun r).pc = s.pc := rfl
@[simp] theorem State.setRun_flags (s : State) (r : RunState) : (s.setRun r).flags = s.flags := rfl
@[simp] theorem State.setRun_mem (s : State) (r : RunState) : (s.setRun r).mem = s.mem := rfl
@[simp] theorem State.setRun_run (s : State) (r : RunState) : (s.setRun r).run = r := rfl
@[simp] theorem State.setRun_out (s : State) (r : RunState) : (s.setRun r).out = s.out := rfl
@[simp] theorem State.setRun_reg (s : State) (r : RunState) (q : RegIx) : (s.setRun r).reg q = s.reg q := rfl
@[simp] theorem State.setRun_sp (s : State) (r : RunState) : (s.setRun r).sp = s.sp := rfl
@[simp] theorem State.setRun_cell (s : State) (r : RunState) (a : Nat) : (s.setRun r).cell a = s.cell a := rfl

@[simp] theorem State.emit_regs (s : State) (ev : Event) : (s.emit ev).regs = s.regs := rfl
@[simp] theorem State.emit_pc (s : State) (ev : Event) : (s.emit ev).pc = s.pc := rfl
@[simp] theorem State.emit_flags (s : State) (ev : Event) : (s.emit ev).flags = s.flags := rfl
@[simp] theorem State.emit_mem (s : State) (ev : Event) : (s.emit ev).mem = s.mem := rfl
@[simp] theorem State.emit_run (s : State) (ev : Event) : (s.emit ev).run = s.run := rfl
@[simp] theorem State.emit_out (s : State) (ev : Event) : (s.emit ev).out = s.out ++ [ev] := rfl
@[simp] theorem State.emit_reg (s : State) (ev : Event) (q : RegIx) : (s.emit ev).reg q = s.reg q := rfl
@[simp] theorem State.emit_sp (s : State) (ev : Event) : (s.emit ev).sp = s.sp := rfl
@[simp] theorem State.emit_cell (s : State) (ev : Event) (a : Nat) : (s.emit ev).cell a = s.cell a := rfl

@[simp] theorem takeAbort_regs (s : State) (c : AbortCause) : (takeAbort c s).regs = s.regs := rfl
@[simp] theorem takeAbort_pc (s : State) (c : AbortCause) : (takeAbort c s).pc = s.pc := rfl
@[simp] theorem takeAbort_flags (s : State) (c : AbortCause) : (takeAbort c s).flags = s.flags := rfl
@[simp] theorem takeAbort_mem (s : State) (c : AbortCause) : (takeAbort c s).mem = s.mem := rfl
@[simp] theorem takeAbort_run (s : State) (c : AbortCause) : (takeAbort c s).run = .aborted c := rfl
@[simp] theorem takeAbort_out (s : State) (c : AbortCause) : (takeAbort c s).out = s.out ++ [.abortDiag c] := rfl
@[simp] theorem takeAbort_reg (s : State) (c : AbortCause) (q : RegIx) : (takeAbort c s).reg q = s.reg q := rfl
@[simp] theorem takeAbort_sp (s : State) (c : AbortCause) : (takeAbort c s).sp = s.sp := rfl
@[simp] theorem takeAbort_cell (s : State) (c : AbortCause) (a : Nat) : (takeAbort c s).cell a = s.cell a := rfl

@[simp] theorem takeUnrecognized_regs (s : State) (op : Byte) : (takeUnrecognized op s).regs = s.regs := rfl
@[simp] theorem takeUnrecognized_pc (s : State) (op : Byte) : (takeUnrecognized op s).pc = s.pc := rfl
@[simp] theorem takeUnrecognized_flags (s : State) (op : Byte) : (takeUnrecognized op s).flags = s.flags := rfl
@[simp] theorem takeUnrecognized_mem (s : State) (op : Byte) : (takeUnrecognized op s).mem = s.mem := rfl
@[simp] theorem takeUnrecognized_run (s : State) (op : Byte) : (takeUnrecognized op s).run = .faulted op := rfl
@[simp] theorem takeUnrecognized_out (s : State) (op : Byte) : (takeUnrecognized op s).out = s.out ++ [.diag op] := rfl
@[simp] theorem takeUnrecognized_reg (s : State) (op : Byte) (q : RegIx) : (takeUnrecognized op s).reg q = s.reg q := rfl
@[simp] theorem takeUnrecognized_sp (s : State) (op : Byte) : (takeUnrecognized op s).sp = s.sp := rfl
@[simp] theorem takeUnrecognized_cell (s : State) (op : Byte) (a : Nat) : (takeUnrecognized op s).cell a = s.cell a := rfl

/-- A register after a register write. -/
theorem State.setReg_reg (s : State) (r : RegIx) (v : Byte) (q : RegIx) :
    (s.setReg r v).reg q = if q = r then v else s.reg q := by
  simp only [State.reg, State.setReg, Vector.getElem_set, Fin.ext_iff, eq_comm]

@[simp] theorem State.setReg_reg_same (s : State) (r : RegIx) (v : Byte) : (s.setReg r v).reg r = v := by
  simp [State.setReg_reg]

theorem State.setReg_reg_other (s : State) {r q : RegIx} (v : Byte) (h : q ≠ r) :
    (s.setReg r v).reg q = s.reg q := by
  simp [State.setReg_reg, h]

/-- A register after the stack pointer is set. -/
theorem State.setSp_reg (s : State) (v : Byte) (q : RegIx) :
    (s.setSp v).reg q = if q = spIndex then v else s.reg q := s.setReg_reg spIndex v q

@[simp] theorem State.setSp_sp (s : State) (v : Byte) : (s.setSp v).sp = v := s.setReg_reg_same spIndex v

/-- The stack pointer after a register write. -/
theorem State.setReg_sp (s : State) (r : RegIx) (v : Byte) :
    (s.setReg r v).sp = if spIndex = r then v else s.sp := s.setReg_reg r v spIndex

end Sys2Proof.Machine
end

