-- ==== Sys2Proof/Laws/Ops.lean ====
section
/-! SUPPORT. Laws/Ops.lean: what each shared operation can do, said once. -/
namespace Sys2Proof.Machine

/-! ### Operands -/

theorem regIndex_ok {b : Byte} (h : b.toNat < 8) : regIndex b = .ok ⟨b.toNat, h⟩ := dif_pos h

theorem regIndex_error {b : Byte} (h : 8 ≤ b.toNat) : regIndex b = .error (.registerIndex b) :=
  dif_neg (Nat.not_lt.mpr h)

theorem trunc8_toNat {n : Nat} (h : n < 256) : (trunc8 n).toNat = n := by
  simp [trunc8, Nat.mod_eq_of_lt h]

@[simp] theorem trunc8_of_toNat (v : Byte) : trunc8 v.toNat = v := by simp [trunc8]

@[simp] theorem zext9_toNat (v : Byte) : (zext9 v).toNat = v.toNat := by
  simp only [zext9, BitVec.toNat_setWidth]; omega

/-! ### Registers -/

theorem readReg_ok {b : Byte} (h : b.toNat < 8) (s : State) : readReg b s = .ok (s.reg ⟨b.toNat, h⟩) := by
  simp only [readReg, regIndex_ok h]

theorem readReg_error {b : Byte} (h : 8 ≤ b.toNat) (s : State) : readReg b s = .error (.registerIndex b) := by
  simp only [readReg, regIndex_error h]

theorem writeReg_ok {b : Byte} (h : b.toNat < 8) (v : Byte) (s : State) :
    writeReg b v s = .ok (s.setReg ⟨b.toNat, h⟩ v) := by
  simp only [writeReg, regIndex_ok h]

theorem writeReg_error {b : Byte} (h : 8 ≤ b.toNat) (v : Byte) (s : State) :
    writeReg b v s = .error (.registerIndex b) := by
  simp only [writeReg, regIndex_error h]

/-! ### Memory -/

theorem memRead_ok {a : Nat} (h : a < 256) (s : State) : memRead a s = .ok (s.cell a) := if_pos h

theorem memRead_error {a : Nat} (h : 256 ≤ a) (s : State) : memRead a s = .error (.memoryBounds a) :=
  if_neg (Nat.not_lt.mpr h)

theorem memWrite_ok {a : Nat} (h : a < 256) (v : Byte) (s : State) :
    memWrite a v s = .ok { s with mem := memSet s.mem a v } := if_pos h

theorem memWrite_error {a : Nat} (h : 256 ≤ a) (v : Byte) (s : State) :
    memWrite a v s = .error (.memoryBounds a) := if_neg (Nat.not_lt.mpr h)

/-- A write that completes keeps the canonical form and changes one cell (20_memory.md R33). -/
theorem memWrite_next {a : Nat} {v : Byte} {s t : State} (h : memWrite a v s = .ok t) (hm : Memory.wf s.mem = true) :
    Memory.wf t.mem = true ∧ (∀ b, t.cell b = if b = a then v else s.cell b) ∧ t = { s with mem := t.mem } := by
  unfold memWrite at h
  split at h
  · next ha =>
    obtain rfl := Except.ok.inj h
    exact ⟨Memory.wf_memSet v hm ha, Memory.get_memSet hm a v, rfl⟩
  · cases h

/-- The stack pointer is always the address of a cell (20_memory.md R30). -/
theorem State.sp_lt (s : State) : s.sp.toNat < 256 := s.sp.isLt

/-- `pc` advances without wrapping wherever an instruction executes (10_state.md R17). -/
theorem pc_add_toNat {p k : PcWord} (hp : p.toNat ≤ 253) (hk : k.toNat ≤ 3) : (p + k).toNat = p.toNat + k.toNat := by
  rw [BitVec.toNat_add]; omega

/-! ### The end of a handler -/

@[simp] theorem settle_ok (s t : State) : settle s (.ok t) = .next t := rfl

@[simp] theorem settle_error (s : State) (c : AbortCause) : settle s (.error c) = .next (takeAbort c s) := rfl

/-- A handler always answers a next state: its own, or the abort taken in the state it began in. -/
theorem settle_next {s t : State} {r : Except AbortCause State} (h : settle s r = .next t) :
    r = .ok t ∨ ∃ c, r = .error c ∧ t = takeAbort c s := by
  cases r with
  | ok u => simp only [settle_ok, Host.Outcome.next.injEq] at h; exact .inl (h ▸ rfl)
  | error c => simp only [settle_error, Host.Outcome.next.injEq] at h; exact .inr ⟨c, rfl, h.symm⟩

theorem settle_total (s : State) (r : Except AbortCause State) : ∃ t, settle s r = .next t := by
  cases r <;> exact ⟨_, rfl⟩

@[simp] theorem ok_bind {α β : Type} (a : α) (f : α → Except AbortCause β) : (Except.ok a >>= f) = f a := rfl

@[simp] theorem error_bind {α β : Type} (c : AbortCause) (f : α → Except AbortCause β) :
    (Except.error c >>= f) = .error c := rfl

/-! ### Flags -/

/-- The compare leaves exactly one flag set (45_compare_branch.md R70). -/
theorem compareFlags_exactlyOne (a b : Byte) : (compareFlags a b).exactlyOne = true := by
  unfold compareFlags
  split
  · rfl
  · split <;> rfl

@[simp] theorem compareFlags_e (a b : Byte) : (compareFlags a b).e = decide (a.toNat = b.toNat) := by
  unfold compareFlags
  by_cases he : a.toNat = b.toNat
  · simp [he]
  · by_cases hl : a.toNat < b.toNat <;> simp [he, hl]

@[simp] theorem compareFlags_l (a b : Byte) : (compareFlags a b).l = decide (a.toNat < b.toNat) := by
  unfold compareFlags
  by_cases he : a.toNat = b.toNat
  · simp [he]
  · by_cases hl : a.toNat < b.toNat <;> simp [he, hl]

@[simp] theorem compareFlags_g (a b : Byte) : (compareFlags a b).g = decide (b.toNat < a.toNat) := by
  unfold compareFlags
  by_cases he : a.toNat = b.toNat
  · simp [he]
  · by_cases hl : a.toNat < b.toNat
    · simp [he, hl, Nat.le_of_lt hl]
    · simp [he, hl, Nat.lt_of_le_of_ne (Nat.le_of_not_lt hl) (Ne.symm he)]

theorem Flags.legal_of_exactlyOne {f : Flags} (h : f.exactlyOne = true) : f.legal = true := by
  simp [Flags.legal, h]

/-! ### ALU and jumps -/

/-- An ALU operation on two registers that exist (42_alu.md R61). -/
theorem alu_ok {ra rb : Byte} (ha : ra.toNat < 8) (hb : rb.toNat < 8) (op : AluOp) (s : State) :
    alu op ra rb s =
      (aluValue op (s.reg ⟨ra.toNat, ha⟩) (s.reg ⟨rb.toNat, hb⟩)).map (s.setReg ⟨ra.toNat, ha⟩) := by
  simp only [alu, readReg_ok ha, readReg_ok hb, ok_bind]
  cases aluValue op (s.reg ⟨ra.toNat, ha⟩) (s.reg ⟨rb.toNat, hb⟩) with
  | ok v => exact writeReg_ok ha v s
  | error c => rfl

theorem alu_first_index {ra : Byte} (ha : 8 ≤ ra.toNat) (op : AluOp) (rb : Byte) (s : State) :
    alu op ra rb s = .error (.registerIndex ra) := by
  simp only [alu, readReg_error ha, error_bind]

theorem alu_second_index {ra rb : Byte} (ha : ra.toNat < 8) (hb : 8 ≤ rb.toNat) (op : AluOp) (s : State) :
    alu op ra rb s = .error (.registerIndex rb) := by
  simp only [alu, readReg_ok ha, readReg_error hb, ok_bind, error_bind]

/-- A conditional jump through a register that exists (45_compare_branch.md R72, R73). -/
theorem jumpIf_ok {ra : Byte} (h : ra.toNat < 8) (c : Bool) (s : State) :
    jumpIf c ra s = .ok (if c then s.jumpTo (s.reg ⟨ra.toNat, h⟩) else s.advance 2) := by
  simp only [jumpIf, readReg_ok h, ok_bind]

theorem jumpIf_error {ra : Byte} (h : 8 ≤ ra.toNat) (c : Bool) (s : State) :
    jumpIf c ra s = .error (.registerIndex ra) := by
  simp only [jumpIf, readReg_error h, error_bind]

end Sys2Proof.Machine
end

