-- ==== Sys2Proof/Laws/PerInstr.lean ====
section
/-! SUPPORT. Laws/PerInstr.lean: the length of an encoded instruction, one lemma for each constructor. -/
namespace Sys2Proof.Laws.EncodedLength

/-- The first cell's top two bits, the number of operands of the instruction's row and the number of cells that follow
are the same number (30_encoding.md R43, R44). -/
def Statement (i : Instr) : Prop :=
  ∃ op rest, encode i = op :: rest ∧ declaredCount op = i.operandCount ∧ rest.length = i.operandCount

theorem ldi (ra imm : Byte) : Statement (.ldi ra imm) := ⟨opcLdi, [ra, imm], rfl, rfl, rfl⟩
theorem prn (ra : Byte) : Statement (.prn ra) := ⟨opcPrn, [ra], rfl, rfl, rfl⟩
theorem mul (ra rb : Byte) : Statement (.mul ra rb) := ⟨opcMul, [ra, rb], rfl, rfl, rfl⟩
theorem hlt : Statement .hlt := ⟨opcHlt, [], rfl, rfl, rfl⟩
theorem push (ra : Byte) : Statement (.push ra) := ⟨opcPush, [ra], rfl, rfl, rfl⟩
theorem pop (ra : Byte) : Statement (.pop ra) := ⟨opcPop, [ra], rfl, rfl, rfl⟩
theorem jmp (ra : Byte) : Statement (.jmp ra) := ⟨opcJmp, [ra], rfl, rfl, rfl⟩
theorem cmp (ra rb : Byte) : Statement (.cmp ra rb) := ⟨opcCmp, [ra, rb], rfl, rfl, rfl⟩
theorem jeq (ra : Byte) : Statement (.jeq ra) := ⟨opcJeq, [ra], rfl, rfl, rfl⟩
theorem jne (ra : Byte) : Statement (.jne ra) := ⟨opcJne, [ra], rfl, rfl, rfl⟩

end Sys2Proof.Laws.EncodedLength
end

