-- ==== Sys2Proof/Laws/Step.lean ====
section
/-! SUPPORT. Laws/Step.lean: what fetch, dispatch and the step can do, said once. -/
namespace Sys2Proof.Machine

/-- Fetch where all three cells exist (40_sequencer.md R55). -/
theorem fetch_ok {s : State} (h : s.pc.toNat ≤ 253) :
    fetch s = .ok ⟨s.cell s.pc.toNat, s.cell (s.pc.toNat + 1), s.cell (s.pc.toNat + 2)⟩ := by
  simp only [fetch, memRead_ok (show s.pc.toNat < 256 by omega), memRead_ok (show s.pc.toNat + 1 < 256 by omega),
    memRead_ok (show s.pc.toNat + 2 < 256 by omega), ok_bind]

/-- Fetch where they do not: the first address out of range is reported (40_sequencer.md R55). -/
theorem fetch_error {s : State} (h : 254 ≤ s.pc.toNat) :
    fetch s = .error (.memoryBounds (max 256 s.pc.toNat)) := by
  by_cases h0 : 256 ≤ s.pc.toNat
  · rw [Nat.max_eq_right h0]
    simp only [fetch, memRead_error h0, error_bind]
  · by_cases h1 : 256 ≤ s.pc.toNat + 1
    · have he : s.pc.toNat = 255 := by omega
      simp only [fetch, he]
      rfl
    · have he : s.pc.toNat = 254 := by omega
      simp only [fetch, he]
      rfl

/-- What fetch can answer. -/
theorem fetch_cases (s : State) :
    (s.pc.toNat ≤ 253 ∧ fetch s = .ok ⟨s.cell s.pc.toNat, s.cell (s.pc.toNat + 1), s.cell (s.pc.toNat + 2)⟩) ∨
    (254 ≤ s.pc.toNat ∧ fetch s = .error (.memoryBounds (max 256 s.pc.toNat))) := by
  by_cases h : s.pc.toNat ≤ 253
  · exact .inl ⟨h, fetch_ok h⟩
  · exact .inr ⟨by omega, fetch_error (by omega)⟩

theorem stepWith_running {s : State} (h : s.run = .running) (w : Bool) : stepWith w s = cycle w s := by
  simp only [stepWith, h]

theorem step_running {s : State} (h : s.run = .running) : step s = cycle false s := stepWith_running h false

/-- Only a running machine has a step (40_sequencer.md R54). -/
theorem running_of_stepWith {s t : State} {w : Bool} (h : stepWith w s = .next t) : s.run = .running := by
  unfold stepWith at h
  split at h
  · assumption
  all_goals cases h

theorem running_of_step {s t : State} (h : step s = .next t) : s.run = .running := running_of_stepWith h

/-- Dispatch of a slot with a handler. -/
theorem dispatchSlot_some {c : Slot} {i : Instr} (h : decodeSlot c.ir c.opa c.opb = some i) (w : Bool) (s : State) :
    dispatchSlot w c s = exec i s := by
  simp only [dispatchSlot, h]

/-- Dispatch of a slot without one, the optional ADD left out. -/
theorem dispatchSlot_none {c : Slot} (h : decodeSlot c.ir c.opa c.opb = none) (s : State) :
    dispatchSlot false c s = .next (takeUnrecognized c.ir s) := by
  simp only [dispatchSlot, h, Bool.false_and, Bool.false_eq_true, if_false]

/-- Everything a step that answers a next state can be: a fetch abort, a handler, or an unrecognized byte. -/
theorem step_cases {s t : State} (h : step s = .next t) :
    s.run = .running ∧
    ((254 ≤ s.pc.toNat ∧ t = takeAbort (.memoryBounds (max 256 s.pc.toNat)) s) ∨
     (s.pc.toNat ≤ 253 ∧ ∃ i, decodeSlot (s.cell s.pc.toNat) (s.cell (s.pc.toNat + 1)) (s.cell (s.pc.toNat + 2)) = some i ∧
        exec i s = .next t) ∨
     (s.pc.toNat ≤ 253 ∧ decodeSlot (s.cell s.pc.toNat) (s.cell (s.pc.toNat + 1)) (s.cell (s.pc.toNat + 2)) = none ∧
        t = takeUnrecognized (s.cell s.pc.toNat) s)) := by
  have hr := running_of_step h
  refine ⟨hr, ?_⟩
  rw [step_running hr] at h
  unfold cycle at h
  obtain ⟨hp, hf⟩ | ⟨hp, hf⟩ := fetch_cases s
  · rw [hf] at h
    cases hd : decodeSlot (s.cell s.pc.toNat) (s.cell (s.pc.toNat + 1)) (s.cell (s.pc.toNat + 2)) with
    | some i => exact .inr (.inl ⟨hp, i, rfl, (dispatchSlot_some hd false s).symm.trans h⟩)
    | none => exact .inr (.inr ⟨hp, rfl, (Host.Outcome.next.inj ((dispatchSlot_none hd s).symm.trans h)).symm⟩)
  · rw [hf] at h
    exact .inl ⟨hp, (Host.Outcome.next.inj h).symm⟩

end Sys2Proof.Machine
end

