-- ==== Sys2Proof/Tests/Slice0.lean ====
section
/-! SUPPORT. Tests/Slice0.lean: the model's own tests. Expected values come from the spec's tables and vectors
(95_test_vectors.md, named beside each test), never from the model. The second half holds, for every obligation with
hypotheses, states and operands that meet them. -/
namespace Sys2Proof.Tests
open Sys2Proof Sys2Proof.Machine

/-- The state `s` with the bytes at `pc`. -/
def placed (s : State) (pc : PcWord) (bytes : List Byte) : State :=
  { s with pc := pc, mem := memSetAll s.mem pc.toNat bytes }

/-- The reset state with the bytes at `pc`. -/
def code (pc : PcWord) (bytes : List Byte) : State := placed State.reset pc bytes

/-- The next state of an outcome. -/
def nextOf : Host.Outcome State Fault Refusal → Option State
  | .next t => some t
  | _ => none

/-- A question about the state after one step. -/
def after {α : Type} (s : State) (f : State → α) : Option α := (nextOf (step s)).map f

/-! ### WellFormed: one ill-formed term for each check (30_encoding.md R51) -/

theorem test_wf_ldi : (Instr.ldi 8 0).wf = false ∧ (Instr.ldi 7 255).wf = true := by decide
theorem test_wf_prn : (Instr.prn 255).wf = false ∧ (Instr.prn 0).wf = true := by decide
theorem test_wf_mul_first : (Instr.mul 8 0).wf = false ∧ (Instr.mul 7 7).wf = true := by decide
theorem test_wf_mul_second : (Instr.mul 0 8).wf = false := by decide
theorem test_wf_push : (Instr.push 8).wf = false ∧ (Instr.push 7).wf = true := by decide
theorem test_wf_pop : (Instr.pop 128).wf = false ∧ (Instr.pop 7).wf = true := by decide
theorem test_wf_jmp : (Instr.jmp 8).wf = false ∧ (Instr.jmp 7).wf = true := by decide
theorem test_wf_cmp_first : (Instr.cmp 9 8).wf = false ∧ (Instr.cmp 7 0).wf = true := by decide
theorem test_wf_cmp_second : (Instr.cmp 0 9).wf = false := by decide
theorem test_wf_jeq : (Instr.jeq 9).wf = false ∧ (Instr.jeq 7).wf = true := by decide
theorem test_wf_jne : (Instr.jne 9).wf = false ∧ (Instr.jne 7).wf = true := by decide

/-! ### Decoding: words written out from 30_encoding.md R43 and R46 -/

theorem test_decode_ldi : decodeTableWord 24 0b00000101_00000000_10000010 = some (.ldi 0 5) := by decide
theorem test_decode_prn : decodeTableWord 16 0b00000010_01000111 = some (.prn 2) := by decide
theorem test_decode_mul : decodeTableWord 24 0b00000011_00000010_10100010 = some (.mul 2 3) := by decide
theorem test_decode_hlt : decodeTableWord 8 0b00000001 = some .hlt := by decide
theorem test_decode_push : decodeTableWord 16 0b00000111_01000101 = some (.push 7) := by decide
theorem test_decode_pop : decodeTableWord 16 0b11111111_01000110 = some (.pop 255) := by decide
theorem test_decode_jmp : decodeTableWord 16 0b00000011_01010100 = some (.jmp 3) := by decide
theorem test_decode_cmp : decodeTableWord 24 0b00000001_00000000_10100111 = some (.cmp 0 1) := by decide
theorem test_decode_jeq : decodeTableWord 16 0b00000010_01010101 = some (.jeq 2) := by decide
theorem test_decode_jne : decodeTableWord 16 0b00000001_01010110 = some (.jne 1) := by decide
/-- R47, R48, V-SEQ 1 to 3. -/
theorem test_decode_rejects :
    decodeTableWord 8 0x00 = none ∧ decodeTableWord 8 0xC1 = none ∧ decodeTableWord 8 0xA0 = none := by decide
/-- R49: a byte sequence that ends early is no instruction. -/
theorem test_decode_truncated :
    decode [] = .error .noBytes ∧ decode [0x82, 0] = .error (.truncated 0x82) := ⟨rfl, rfl⟩
/-- 00_scope.md R5: the ten opcode bytes are pairwise distinct, and `ADD`'s is none of them. -/
theorem test_opcodes_distinct :
    [opcLdi, opcPrn, opcMul, opcHlt, opcPush, opcPop, opcJmp, opcCmp, opcJeq, opcJne, opcAdd].Nodup := by decide

/-! ### One step -/

/-- S1, V-LDI 1. -/
theorem test_ldi : after (code 0 [0x82, 0x00, 0x05]) (fun t => (t.reg 0, t.pc, t.run)) = some (5, 3, .running) := by
  decide
/-- V-LDI 4: index 8 aborts, nothing else changes. -/
theorem test_ldi_index :
    after (code 0 [0x82, 0x08, 0x05]) (fun t => (t.regs, t.pc, t.run, t.out)) =
      some (State.reset.regs, 0, .aborted (.registerIndex 8), [.abortDiag (.registerIndex 8)]) := by decide
/-- V-PRN 7. -/
theorem test_prn : after (code 0 [0x47, 0x07]) (fun t => (t.out, t.pc)) = some ([.print 244], 2) := by decide
/-- V-PRN 8. -/
theorem test_prn_index : after (code 0 [0x47, 0xFF]) (fun t => (t.out, t.pc)) =
    some ([.abortDiag (.registerIndex 255)], 0) := by decide
/-- S3, V-MUL 1. -/
theorem test_mul :
    after (placed ((State.reset.setReg 2 6).setReg 3 7) 0 [0xA2, 0x02, 0x03]) (fun t => (t.reg 2, t.reg 3, t.pc)) =
      some (42, 7, 3) := by decide
/-- V-MUL 3 and 11: 255 squared wraps to 1; the first bad index is reported. -/
theorem test_mul_wraps :
    after (placed (State.reset.setReg 0 255) 0 [0xA2, 0x00, 0x00]) (fun t => t.reg 0) = some 1 ∧
    after (code 0 [0xA2, 0x09, 0x08]) (fun t => t.run) = some (.aborted (.registerIndex 9)) := by decide
/-- S2, V-HLT 1, V-SEQ 4. -/
theorem test_hlt :
    after (code 0 [0x01, 0xFF, 0xFF]) (fun t => (t.run, t.pc, t.out, t.regs)) =
      some (.halted, 1, [.haltNotice], State.reset.regs) := by decide
/-- V-SEQ 7, V-SEQ 6. -/
theorem test_hlt_at_the_end :
    after (code 254 [0x01]) (fun t => (t.run, t.pc)) = some (.aborted (.memoryBounds 256), 254) ∧
    after (code 253 [0x01]) (fun t => (t.run, t.pc)) = some (.halted, 254) := by decide
/-- V-PUSH 3: the decremented stack pointer is what is pushed. -/
theorem test_push_sp :
    after (code 0 [0x45, 0x07]) (fun t => (t.sp, t.cell 0xF3, t.pc)) = some (0xF3, 0xF3, 2) := by decide
/-- V-PUSH 7. -/
theorem test_push_at_zero :
    after (placed (State.reset.setReg 7 0) 3 [0x45, 0x00]) (fun t => (t.run, t.sp, t.pc)) =
      some (.aborted (.stackBounds .push), 0, 3) := by decide
/-- V-POP 2. -/
theorem test_pop :
    after (placed { State.reset.setReg 7 0xF3 with mem := [(0xF3, 1)] } 12 [0x46, 0x01])
      (fun t => (t.reg 1, t.sp, t.pc, t.cell 0xF3)) = some (1, 0xF4, 14, 1) := by decide
/-- V-POP 5 and 6: `POP R7` increments the loaded value, and aborts when it is 255. -/
theorem test_pop_sp :
    after (placed { State.reset.setReg 7 0xF3 with mem := [(0xF3, 0x33)] } 0 [0x46, 0x07]) (fun t => t.sp) = some 0x34 ∧
    after (placed { State.reset.setReg 7 0xF3 with mem := [(0xF3, 0xFF)] } 0 [0x46, 0x07]) (fun t => (t.run, t.sp)) =
      some (.aborted (.stackBounds .pop), 0xF3) := by decide
/-- V-CMP 5: the comparison is unsigned. -/
theorem test_cmp_unsigned :
    after (placed ((State.reset.setReg 0 0x80).setReg 1 0x7F) 0 [0xA7, 0x00, 0x01]) (fun t => (t.flags, t.pc)) =
      some (⟨false, false, true⟩, 3) := by decide
/-- V-CMP 3 and 8: old flags never survive a completed compare and always survive an aborted one. -/
theorem test_cmp_flags :
    after (placed ((State.reset.setReg 0 7).setReg 1 7 |>.setFlags ⟨false, false, true⟩) 0 [0xA7, 0x00, 0x01])
      (fun t => t.flags) = some ⟨true, false, false⟩ ∧
    after (placed (State.reset.setFlags ⟨false, true, false⟩) 0 [0xA7, 0x00, 0x08]) (fun t => (t.flags, t.run)) =
      some (⟨false, true, false⟩, .aborted (.registerIndex 8)) := by decide
/-- V-JMP 1 and 3. -/
theorem test_jmp :
    after (placed (State.reset.setReg 3 24) 17 [0x54, 0x03]) (fun t => t.pc) = some 24 ∧
    after (placed (State.reset.setReg 0 255) 3 [0x54, 0x00]) (fun t => (t.pc, t.run)) = some (255, .running) := by decide
/-- V-JEQ 5, 6 and 11. -/
theorem test_jeq :
    after (placed ((State.reset.setReg 2 21).setFlags ⟨true, false, false⟩) 12 [0x55, 0x02]) (fun t => t.pc) = some 21 ∧
    after (placed ((State.reset.setReg 2 21).setFlags ⟨false, true, false⟩) 12 [0x55, 0x02]) (fun t => t.pc) = some 14 ∧
    after (code 0 [0x55, 0x09]) (fun t => t.run) = some (.aborted (.registerIndex 9)) := by decide
/-- V-JNE 9 and 10: not taken on equal, taken before any compare. -/
theorem test_jne :
    after (placed ((State.reset.setReg 3 12).setFlags ⟨true, false, false⟩) 18 [0x56, 0x03]) (fun t => t.pc) = some 20 ∧
    after (placed (State.reset.setReg 1 6) 3 [0x56, 0x01]) (fun t => t.pc) = some 6 := by decide
/-- V-SEQ 1, 3 and 8. -/
theorem test_unrecognized :
    after State.reset (fun t => (t.run, t.pc, t.out)) = some (.faulted 0x00, 0, [.diag 0x00]) ∧
    after (code 3 [0xA0, 0, 0]) (fun t => (t.run, t.pc)) = some (.faulted 0xA0, 3) ∧
    after (code 255 [0x01]) (fun t => t.run) = some (.aborted (.memoryBounds 256)) := by decide
/-- V-SEQ 11: no step after the end. -/
theorem test_no_step : step { State.reset with run := .halted } = .fault .halted := rfl
/-- V-MUL, the note on ALU add: 200 + 100 is 44, with ADD dispatched only. -/
theorem test_add_variant :
    (nextOf (stepWith true (placed ((State.reset.setReg 0 200).setReg 1 100) 0 [0xA0, 0x00, 0x01]))).map
      (fun t => (t.reg 0, t.pc)) = some (44, 3) := by decide
/-- The instruction placed for the next step is the one it runs. -/
theorem test_with_fetch_word : after (State.reset.withFetchWord 24 0x050082) (fun t => (t.reg 0, t.pc)) = some (5, 3) := by
  decide

/-! ### Loading (V-LOAD) -/

/-- V-LOAD 1, 3, 4, 5. -/
theorem test_lines :
    parseLine ['1', '0', '0', '0', '0', '0', '1', '0'] = .byte 0x82 ∧
    parseLine [' ', ' ', '1', '0', '1', ' ', ' '] = .byte 5 ∧ parseLine ['h', 'e', 'l', 'l', 'o'] = .skipped ∧
    parseLine ['0', '0', '0', '0', '0', '0', '0', '1', '#', 'x'] = .byte 1 := by decide
/-- V-LOAD 6, 7. -/
theorem test_refusals :
    parseLine ['1', '0', '0', '0', '0', '0', '0', '0', '0'] = .refused ∧
    loadImage (List.replicate 257 0) State.reset = .error (.imageTooLong 257) :=
  ⟨by decide, by
    have h := loadImage_too_long (image := List.replicate 257 0) (by rw [List.length_replicate]; decide) State.reset
    rwa [List.length_replicate] at h⟩
/-- V-LOAD 2 as an image, with comment and blank lines. -/
theorem test_text :
    parseLines [['1', '0', '0', '0', '0', '0', '1', '0', ' ', '#', 'L'], [], ['#', 'c'], ['0', '0'], ['1', '0', '0', '0']] =
      .ok [0x82, 0x00, 0x08] := rfl

/-! ### Witnesses: the hypotheses of each obligation can be met, clause by clause at the ends of its range -/

theorem witness_DecodeAndEncodeAgree : decode [0x01, 7] = .ok (.hlt, [7]) := rfl
theorem witness_OperandCountIsTopTwoBits :
    decode [0x82, 0, 5] = .ok (.ldi 0 5, []) ∧ decode [0x01] = .ok (.hlt, []) := ⟨rfl, rfl⟩
theorem witness_UnpassedCellsHaveNoEffect :
    (((0x01 : Byte) >>> 6).toNat = 0 ∨ (1 : Byte) = 2) ∧ (((0x47 : Byte) >>> 6).toNat ≤ 1 ∨ (1 : Byte) = 2) ∧
    (((0x82 : Byte) >>> 6).toNat = 0 ∨ (2 : Byte) = 2) := by decide
/-- Register operands at both ends of the two ranges, for LDI, PRN, MUL, JMP, CMP, JEQ, JNE and the ALU. -/
theorem witness_register_ranges :
    (0 : Byte).toNat < 8 ∧ (7 : Byte).toNat < 8 ∧ 8 ≤ (8 : Byte).toNat ∧ 8 ≤ (255 : Byte).toNat := by decide
theorem witness_HltHaltsAndAdvancesByOne :
    (code 254 [0x01]).run = .running ∧ (code 254 [0x01]).pc.toNat = 254 ∧ (code 254 [0x01]).cell 254 = 0x01 ∧
    (code 255 [0x01]).pc.toNat = 255 ∧ (code 255 [0x01]).cell 255 = 0x01 := by decide
theorem witness_hlt_next : ∃ t, exec .hlt State.reset = .next t := ⟨_, rfl⟩
theorem witness_PushDecrementsThenStores :
    Memory.wf State.reset.mem = true ∧ (7 : Byte).toNat < 8 ∧ (State.reset.setReg 7 1).sp.toNat ≠ 0 ∧
    (State.reset.setReg 7 255).sp.toNat ≠ 0 ∧ (State.reset.setReg 7 0).sp.toNat = 0 ∧ 8 ≤ (8 : Byte).toNat := by decide
theorem witness_PopReadsThenIncrements :
    (6 : Byte).toNat ≠ spIndex.val ∧ (State.reset.setReg 7 254).sp.toNat ≠ 255 ∧ (7 : Byte).toNat = spIndex.val ∧
    (State.reset.cell State.reset.sp.toNat).toNat ≠ 255 ∧ (State.reset.setReg 7 255).sp.toNat = 255 ∧
    ({ State.reset with mem := [(0xF4, 255)] }.cell State.reset.sp.toNat).toNat = 255 := by decide
theorem witness_JeqJumpsExactlyWhenEqual :
    (State.reset.setFlags ⟨true, false, false⟩).flags.e = true ∧ State.reset.flags.e = false ∧ (7 : Byte).toNat < 8 := by
  decide
theorem witness_JneJumpsExactlyWhenNotEqual :
    State.reset.flags.e = false ∧ (State.reset.setFlags ⟨true, false, false⟩).flags.e = true ∧ (0 : Byte).toNat < 8 := by
  decide
theorem witness_OptionalAddOnlyWhenDispatched :
    (code 253 [0xA0, 0x00, 0x07]).run = .running ∧ (code 253 [0xA0, 0x00, 0x07]).pc.toNat ≤ 253 ∧
    (code 253 [0xA0, 0x00, 0x07]).cell 253 = 0xA0 ∧ ((code 253 [0xA0, 0x00, 0x07]).cell 255).toNat < 8 ∧
    8 ≤ ((code 0 [0xA0, 0x08]).cell 1).toNat ∧ ((code 0 [0xA0, 0x07, 0x08]).cell 1).toNat < 8 ∧
    8 ≤ ((code 0 [0xA0, 0x07, 0x08]).cell 2).toNat ∧ (code 0 [0x01]).cell 0 ≠ 0xA0 := by decide
theorem witness_StepRunsTheDecodedInstruction :
    (code 253 [0x82, 0x00, 0x09]).run = .running ∧ (code 253 [0x82, 0x00, 0x09]).pc.toNat ≤ 253 ∧
    (decode [(code 253 [0x82, 0x00, 0x09]).cell 253, (code 253 [0x82, 0x00, 0x09]).cell 254,
      (code 253 [0x82, 0x00, 0x09]).cell 255]).toOption = some (.ldi 0 9, []) := by decide
theorem witness_FetchPastMemoryEndAborts :
    (code 254 []).run = .running ∧ (code 254 []).pc.toNat = 254 ∧ (code 255 []).pc.toNat = 255 ∧
    256 ≤ (code 256 []).pc.toNat ∧ 256 ≤ (code 511 []).pc.toNat := by decide
theorem witness_UnrecognizedByteFaults :
    State.reset.run = .running ∧ State.reset.pc.toNat ≤ 253 ∧
    State.reset.cell 0 ∉ ([0x82, 0x47, 0xA2, 0x01, 0x45, 0x46, 0x54, 0xA7, 0x55, 0x56] : List Byte) ∧
    0xC0 ≤ ((code 253 [0xC0]).cell 253).toNat ∧ (code 253 [0xC0]).pc.toNat ≤ 253 := by decide
theorem witness_StepExistsExactlyWhileRunning :
    State.reset.run = .running ∧ (State.reset.setRun .halted).run = .halted ∧
    (State.reset.setRun (.faulted 0)).run = .faulted 0 ∧
    (State.reset.setRun (.aborted (.registerIndex 8))).run = .aborted (.registerIndex 8) := by decide
theorem witness_PlacedInstructionIsTheNextRun :
    Memory.wf State.reset.mem = true ∧ decodeTableWord 24 0x050082 = some (.ldi 0 5) ∧ State.reset.run = .running ∧
    (code 253 []).pc.toNat ≤ 253 := by decide
theorem witness_RegisterWritersFrame :
    (∃ t, exec (.ldi 7 1) State.reset = .next t) ∧ (∃ t, exec (.mul 0 7) State.reset = .next t) ∧
    (∃ t, exec (.pop 0) State.reset = .next t) := ⟨⟨_, rfl⟩, ⟨_, rfl⟩, ⟨_, rfl⟩⟩
theorem witness_NonRegisterWritersFrame :
    (∃ t, exec (.prn 0) State.reset = .next t) ∧ (∃ t, exec .hlt State.reset = .next t) ∧
    (∃ t, exec (.jmp 7) State.reset = .next t) ∧ (∃ t, exec (.jeq 0) State.reset = .next t) ∧
    (∃ t, exec (.jne 0) State.reset = .next t) ∧ (∃ t, exec (.cmp 0 7) State.reset = .next t) :=
  ⟨⟨_, rfl⟩, ⟨_, rfl⟩, ⟨_, rfl⟩, ⟨_, rfl⟩, ⟨_, rfl⟩, ⟨_, rfl⟩⟩
theorem witness_PushFrame :
    Memory.wf State.reset.mem = true ∧ pushAddress State.reset = 0xF3 ∧ ∃ t, exec (.push 7) State.reset = .next t :=
  ⟨rfl, rfl, _, rfl⟩
/-- A step that changes the flags. -/
theorem witness_flags_written :
    ∃ s t, step s = .next t ∧ t.flags ≠ s.flags := ⟨code 0 [0xA7, 0, 0], _, rfl, by decide⟩
/-- A step to replace the flags of: with `FL.E` kept at a JEQ, and with `FL.E` changed at a LDI. -/
theorem witness_flags_read :
    (∃ t, step (code 0 [0x55, 0]) = .next t) ∧ (⟨false, true, true⟩ : Flags).e = (code 0 [0x55, 0]).flags.e ∧
    (∃ t, step (code 0 [0x82, 0, 0]) = .next t) ∧ (code 0 [0x82, 0, 0]).cell 0 ≠ opcJeq ∧
    (code 0 [0x82, 0, 0]).cell 0 ≠ opcJne := ⟨⟨_, rfl⟩, by decide, ⟨_, rfl⟩, by decide, by decide⟩
theorem witness_OnlyPushChangesMemory :
    ∃ s t, Memory.wf s.mem = true ∧ step s = .next t ∧ t.cell 0xF3 ≠ s.cell 0xF3 :=
  ⟨code 0 [0x45, 0x07], _, by decide, rfl, by decide⟩
/-- One step for each case of RunStateAndOutputMoveTogether and PcMovesAsTabled: a jump, a print, a halt, a fault and an
abort. -/
theorem witness_RunStateAndOutputMoveTogether :
    (∃ t, step (code 253 [0x54, 0]) = .next t ∧ t.run = .running) ∧
    (∃ t, step (code 0 [0x47, 0]) = .next t ∧ t.run = .running) ∧
    (∃ t, step (code 253 [0x01]) = .next t ∧ t.run = .halted) ∧
    (∃ t, step (code 0 [0x00]) = .next t ∧ t.run = .faulted 0) ∧
    (∃ t, step (code 254 [0x01]) = .next t ∧ t.run = .aborted (.memoryBounds 256)) :=
  ⟨⟨_, rfl, rfl⟩, ⟨_, rfl, rfl⟩, ⟨_, rfl, rfl⟩, ⟨_, rfl, rfl⟩, ⟨_, rfl, rfl⟩⟩
theorem witness_PcMovesAsTabled : (code 253 [0x54, 0]).cell 253 = opcJmp := by decide
theorem witness_FaultsAndAbortsArePrecise :
    (∃ t, step (code 0 [0xFF]) = .next t ∧ t.run = .faulted 0xFF) ∧
    (∃ t, step (code 253 [0x47, 0x08]) = .next t ∧ t.run = .aborted (.registerIndex 8)) :=
  ⟨⟨_, rfl, rfl⟩, ⟨_, rfl, rfl⟩⟩
/-- One step for each cause a program can raise; the index once at the second operand. -/
theorem witness_AbortReportsTheFirstCause :
    (∃ t, step (code 256 []) = .next t ∧ t.run = .aborted (.memoryBounds 256)) ∧
    (∃ t, step (code 0 [0xA7, 0x07, 0x08]) = .next t ∧ t.run = .aborted (.registerIndex 8)) ∧
    (∃ t, step (placed (State.reset.setReg 7 0) 0 [0x45, 0x00]) = .next t ∧ t.run = .aborted (.stackBounds .push)) ∧
    (∃ t, step (placed (State.reset.setReg 7 255) 0 [0x46, 0x00]) = .next t ∧ t.run = .aborted (.stackBounds .pop)) :=
  ⟨⟨_, rfl, rfl⟩, ⟨_, rfl, rfl⟩, ⟨_, rfl, rfl⟩, ⟨_, rfl, rfl⟩⟩
theorem witness_IndexAbortIsIllFormedness :
    (Instr.mul 7 8).regOperands.find? (fun b => !isRegister b) = some 8 ∧ (Instr.push 7).wf = true ∧
    State.reset.run = .running := by decide
theorem witness_LdiThenPrnEmitsTheImmediate :
    (code 250 [0x82, 7, 0xFF, 0x47, 7]).run = .running ∧ (code 250 [0x82, 7, 0xFF, 0x47, 7]).pc.toNat ≤ 250 ∧
    (code 250 [0x82, 7, 0xFF, 0x47, 7]).cell 250 = opcLdi ∧ (code 250 [0x82, 7, 0xFF, 0x47, 7]).cell 251 = 7 ∧
    (code 250 [0x82, 7, 0xFF, 0x47, 7]).cell 252 = 0xFF ∧ (code 250 [0x82, 7, 0xFF, 0x47, 7]).cell 253 = opcPrn ∧
    (code 250 [0x82, 7, 0xFF, 0x47, 7]).cell 254 = 7 ∧ (7 : Byte).toNat < 8 := by decide
theorem witness_PushThenPopRestoresStackPointer :
    (0 : Byte).toNat < 8 ∧ (1 : Byte).toNat ≠ spIndex.val ∧ Memory.wf State.reset.mem = true ∧
    State.reset.sp.toNat ≠ 0 ∧ (State.reset.setReg 7 1).sp.toNat ≠ 0 ∧ ((7 : Byte) = 7) := by decide
/-- Registers 0, SP, 6 and 0 again, pushed with exactly four cells of room, and the cells left alone in between. -/
theorem witness_PushedRegistersComeBackInReverse :
    (∀ r ∈ ([0, 7, 6, 0] : List Byte), r.toNat < 8) ∧
    Memory.wf (State.reset.setReg 7 4).mem = true ∧ ([0, 7, 6, 0] : List Byte).length ≤ (State.reset.setReg 7 4).sp.toNat ∧
    (match execAll (([0, 7, 6, 0] : List Byte).map .push) (State.reset.setReg 7 4) with
      | .next t => decide ((t.setReg 0 9).sp = t.sp ∧ (t.setReg 0 9).mem = t.mem)
      | _ => false) = true := by decide
theorem witness_PushedByteIsTheNextOpcode :
    Memory.wf (placed ((State.reset.setReg 7 9).setReg 0 1) 6 [0x45, 0x00]).mem = true ∧
    (placed ((State.reset.setReg 7 9).setReg 0 1) 6 [0x45, 0x00]).cell 6 = opcPush ∧
    (placed ((State.reset.setReg 7 9).setReg 0 1) 6 [0x45, 0x00]).sp.toNat = 6 + 3 ∧
    ((placed ((State.reset.setReg 7 9).setReg 0 1) 6 [0x45, 0x00]).cell 7).toNat ≠ spIndex.val ∧
    decodeSlot ((State.reset.setReg 0 1).reg 0) 0 0 = some .hlt ∧ recognized (State.reset.reg 0) = false ∧
    (placed ((State.reset.setReg 7 254).setReg 0 1) 251 [0x45, 0x00]).sp.toNat = 251 + 3 := by decide
/-- A JMP, a taken JEQ and a taken JNE to 254 and 255. -/
theorem witness_JumpPastTheLastSlotAbortsNext :
    ((code 253 [0x54, 0x07]).cell 254).toNat < 8 ∧ (code 253 [0x54, 0x07]).cell 253 = opcJmp ∧
    (code 253 [0x54, 0x07]).run = .running ∧ (code 253 [0x54, 0x07]).pc.toNat ≤ 253 ∧
    254 ≤ ((State.reset.setReg 7 254).reg 7).toNat ∧ 254 ≤ ((State.reset.setReg 7 255).reg 7).toNat ∧
    (code 0 [0x55, 0x07]).cell 0 = opcJeq ∧ (State.reset.setFlags ⟨true, false, false⟩).flags.e = true ∧
    (code 0 [0x56, 0x07]).cell 0 = opcJne ∧ State.reset.flags.e = false := by decide
theorem witness_LoadPlacesTheImage :
    (List.replicate 256 (1 : Byte)).length ≤ 256 ∧ (List.replicate 256 (1 : Byte))[255]? = some 1 ∧
    ([0x82, 0, 5] : List Byte).length ≤ 3 :=
  ⟨by rw [List.length_replicate], by rw [List.getElem?_replicate]; decide, by decide⟩
/-- P1's second instruction, at address 3, and a HLT as the last instruction of its program, at address 253. -/
theorem witness_LoadedProgramRunsItsInstructions :
    (∃ t, loadImage (([Instr.ldi 2 6] ++ Instr.ldi 3 7 :: [Instr.mul 2 3, Instr.prn 2, Instr.hlt]).flatMap encode)
        State.reset = .ok t ∧ ({ t with pc := 3 } : State).mem = t.mem ∧ ({ t with pc := 3 } : State).run = .running ∧
      ({ t with pc := 3 } : State).pc.toNat = ([Instr.ldi 2 6].flatMap encode).length) ∧
    ((List.replicate 253 Instr.hlt).flatMap encode).length = 253 :=
  ⟨⟨_, rfl, rfl, rfl, rfl⟩, by
    rw [List.length_flatMap, List.map_replicate, List.sum_replicate_nat]; rfl⟩
/-- A line's remainder from its pieces, where the remainder's first and last characters are known. -/
theorem lineRemainder (before r after tail : List Char) (hb : before.all Char.isWhitespace = true)
    (ha : after.all Char.isWhitespace = true) (ht : tail = [] ∨ tail.head? = some '#') (hr : r.all (· != '#') = true)
    (hf : r.head?.all (!·.isWhitespace) = true) (hl : r.getLast?.all (!·.isWhitespace) = true) :
    LineRemainder (before ++ r ++ after ++ tail) r := by
  refine ⟨before, after, tail, rfl, List.all_eq_true.mp hb, List.all_eq_true.mp ha, ht, fun h => ?_, ?_⟩
  · exact absurd (List.all_eq_true.mp hr _ h) (by decide)
  · rintro c (h | h)
    · simpa [h] using hf
    · simpa [h] using hl
/-- Nine digits with white space around them and a comment after them; 257 lines of one digit. -/
theorem witness_OversizeImageRefused :
    256 < (List.replicate 257 (0 : Byte)).length ∧
    LineRemainder ([' '] ++ List.replicate 9 '1' ++ ['\t'] ++ ['#', 'x']) (List.replicate 9 '1') ∧
    IsNumeral (List.replicate 9 '1') ∧ 9 ≤ (List.replicate 9 '1').length ∧
    (∀ line ∈ List.replicate 257 ['1'], parseLine line ≠ .refused) ∧
    256 < (List.replicate 257 ['1']).countP yieldsByte :=
  ⟨by rw [List.length_replicate]; decide,
    lineRemainder [' '] _ ['\t'] ['#', 'x'] (by decide) (by decide) (.inr rfl) (by decide) (by decide) (by decide),
    ⟨by decide, by simp⟩, by decide, fun _ h => by rw [List.eq_of_mem_replicate h]; decide, by
      rw [List.countP_replicate, if_pos (by decide)]; decide⟩
/-- Eight digits, nine, none beside a comment, and `1 0`, whose only character that is no digit is the space inside. -/
theorem witness_ImageLineYieldsItsByte :
    (LineRemainder (['\t'] ++ List.replicate 8 '1' ++ [] ++ ['#', '2']) (List.replicate 8 '1') ∧
      IsNumeral (List.replicate 8 '1') ∧ (List.replicate 8 '1').length ≤ 8) ∧
    (LineRemainder (List.replicate 9 '0') (List.replicate 9 '0') ∧
      IsNumeral (List.replicate 9 '0') ∧ 9 ≤ (List.replicate 9 '0').length) ∧
    LineRemainder [' ', '#', '1'] [] ∧
    (LineRemainder [' ', '1', ' ', '0'] ['1', ' ', '0'] ∧ ∃ c ∈ ['1', ' ', '0'], c ≠ '0' ∧ c ≠ '1') :=
  ⟨⟨lineRemainder ['\t'] _ [] ['#', '2'] (by decide) (by decide) (.inr rfl) (by decide) (by decide) (by decide),
      ⟨by decide, by simp⟩, by decide⟩,
    ⟨lineRemainder [] (List.replicate 9 '0') [] [] (by decide) (by decide) (.inl rfl) (by decide) (by decide) (by decide),
      ⟨by decide, by simp⟩, by decide⟩,
    lineRemainder [' '] [] [] ['#', '1'] (by decide) (by decide) (.inr rfl) (by decide) (by decide) (by decide),
    lineRemainder [' '] ['1', ' ', '0'] [] [] (by decide) (by decide) (.inl rfl) (by decide) (by decide) (by decide),
    ' ', by decide, by decide⟩
/-- A text with a skipped line between two accepted ones. -/
theorem witness_TextLoadsItsLinesInOrder :
    (∀ line ∈ [['1'], ['#', 'c'], ['0', '1']], parseLine line ≠ .refused) ∧
    [['1'], ['#', 'c'], ['0', '1']].countP yieldsByte ≤ 256 ∧ [['1'], ['#', 'c'], ['0', '1']].countP yieldsByte = 2 ∧
    [['1'], ['#', 'c'], ['0', '1']] = [['1'], ['#', 'c']] ++ ['0', '1'] :: [] ∧ parseLine ['0', '1'] = .byte 1 ∧
    parseLine ['#', 'c'] = .skipped ∧ (List.replicate 256 ['1']).countP yieldsByte ≤ 256 := by
  refine ⟨by decide, by decide, by decide, rfl, by decide, by decide, ?_⟩
  rw [List.countP_replicate, if_pos (by decide)]
theorem witness_LoadedStateMeetsTheInvariant : ∃ s, loadImage [0x82, 0, 5] State.reset = .ok s := ⟨_, rfl⟩
/-- The reset state meets the invariant and has a step. -/
theorem witness_EveryStepKeepsTheInvariant : State.reset.Inv ∧ ∃ t, step State.reset = .next t :=
  ⟨⟨by decide, by decide, by decide, show State.reset.out.all Event.isPrint = true by decide⟩, _, rfl⟩
theorem witness_OneFlagStaysSet :
    ∃ s t, s.flags.exactlyOne = true ∧ step s = .next t :=
  ⟨(code 0 [0x82, 0, 0]).setFlags ⟨false, true, false⟩, _, by decide, rfl⟩
/-- A run of an image that has halted, one that has faulted and one that has aborted are reachable. -/
theorem witness_EndOfARunShowsItsCause :
    (∃ s, Reachable [0x01] s ∧ s.run = .halted) ∧ (∃ s, Reachable [] s ∧ s.run = .faulted 0) ∧
    (∃ s, Reachable [0x47, 0x08] s ∧ s.run = .aborted (.registerIndex 8)) :=
  ⟨⟨_, .stepped _ _ (.loaded _ rfl) rfl, rfl⟩, ⟨_, .stepped _ _ (.loaded _ rfl) rfl, rfl⟩,
    ⟨_, .stepped _ _ (.loaded _ rfl) rfl, rfl⟩⟩
/-- The same for a fetch abort, which a jump to 255 reaches. -/
theorem witness_fetch_abort_reached :
    ∃ s, Reachable [0x82, 0x00, 0xFF, 0x54, 0x00] s ∧ s.run = .aborted (.memoryBounds 256) :=
  ⟨_, .stepped _ _ (.stepped _ _ (.stepped _ _ (.loaded _ rfl) rfl) rfl) rfl, rfl⟩

end Sys2Proof.Tests
end

section
/-! PROOF of O26 (10_state.md R19): which instruction writes the flags and which read them. The idea: an operation that
neither reads nor writes the flags commutes with replacing them, so a step that is no completed CMP does. That such a step
leaves the flags alone is the special case in which they are replaced by themselves. -/
namespace Sys2Proof.Machine

/-! ### The opcode byte of a decoded slot, and the step by what was fetched -/

/-- The byte a slot was dispatched on is the first cell of its instruction (30_encoding.md R46). -/
theorem encode_head_of_decodeSlot {ir a b : Byte} {i : Instr} (h : decodeSlot ir a b = some i) :
    (encode i).head? = some ir := by
  obtain ⟨rfl, rfl⟩ | ⟨rfl, rfl⟩ | ⟨rfl, rfl⟩ | ⟨rfl, rfl⟩ | ⟨rfl, rfl⟩ | ⟨rfl, rfl⟩ | ⟨rfl, rfl⟩ | ⟨rfl, rfl⟩ |
    ⟨rfl, rfl⟩ | ⟨rfl, rfl⟩ := decodeSlot_cases h <;> rfl

/-- The step of a running machine whose fetch runs past the end of memory (40_sequencer.md R55). -/
theorem step_fetch_past_end {s : State} (hr : s.run = .running) (hp : 254 ≤ s.pc.toNat) :
    step s = .next (takeAbort (.memoryBounds (max 256 s.pc.toNat)) s) := by
  simp only [step_running hr, cycle, fetch_error hp]

/-- The step of a running machine whose slot decodes is the handler (40_sequencer.md R56). -/
theorem step_decoded {s : State} {i : Instr} (hr : s.run = .running) (hp : s.pc.toNat ≤ 253)
    (hd : decodeSlot (s.cell s.pc.toNat) (s.cell (s.pc.toNat + 1)) (s.cell (s.pc.toNat + 2)) = some i) :
    step s = exec i s := by
  simp only [step_running hr, cycle, fetch_ok hp]
  exact dispatchSlot_some hd false s

/-- The step of a running machine at a byte that has no handler (60_exceptions.md R76). -/
theorem step_unrecognized {s : State} (hr : s.run = .running) (hp : s.pc.toNat ≤ 253)
    (hd : decodeSlot (s.cell s.pc.toNat) (s.cell (s.pc.toNat + 1)) (s.cell (s.pc.toNat + 2)) = none) :
    step s = .next (takeUnrecognized (s.cell s.pc.toNat) s) := by
  simp only [step_running hr, cycle, fetch_ok hp]
  exact dispatchSlot_none hd s

/-! ### Operations that commute with replacing the flags -/

@[simp] theorem State.setFlags_self (s : State) : s.setFlags s.flags = s := rfl

@[simp] theorem State.setFlags_setSp (s : State) (f : Flags) (v : Byte) : (s.setFlags f).setSp v = (s.setSp v).setFlags f := rfl

@[simp] theorem readReg_setFlags (i : Byte) (s : State) (f : Flags) : readReg i (s.setFlags f) = readReg i s := rfl

@[simp] theorem memRead_setFlags (a : Nat) (s : State) (f : Flags) : memRead a (s.setFlags f) = memRead a s := rfl

@[simp] theorem writeReg_setFlags (i v : Byte) (s : State) (f : Flags) :
    writeReg i v (s.setFlags f) = (·.setFlags f) <$> writeReg i v s := by
  unfold writeReg
  cases regIndex i <;> rfl

@[simp] theorem memWrite_setFlags (a : Nat) (v : Byte) (s : State) (f : Flags) :
    memWrite a v (s.setFlags f) = (·.setFlags f) <$> memWrite a v s := by
  unfold memWrite
  split <;> rfl

@[simp] theorem alu_setFlags (op : AluOp) (ra rb : Byte) (s : State) (f : Flags) :
    alu op ra rb (s.setFlags f) = (·.setFlags f) <$> alu op ra rb s := by
  simp only [alu, readReg_setFlags, writeReg_setFlags, map_bind]

@[simp] theorem jumpIf_setFlags (taken : Bool) (ra : Byte) (s : State) (f : Flags) :
    jumpIf taken ra (s.setFlags f) = (·.setFlags f) <$> jumpIf taken ra s := by
  simp only [jumpIf, readReg_setFlags, map_bind]
  cases taken <;> rfl

/-- A handler whose work commutes with replacing the flags answers the same state but for the flags, be it the state it
completes in or the one its abort leaves. -/
theorem settle_setFlags {s t : State} {r r' : Except AbortCause State} {f : Flags} (h : settle s r = .next t)
    (hr : r' = (·.setFlags f) <$> r) : settle (s.setFlags f) r' = .next (t.setFlags f) := by
  subst hr
  obtain rfl | ⟨c, rfl, rfl⟩ := settle_next h <;> rfl

/-! ### Instructions -/

/-- Every instruction but CMP commutes with replacing the flags; JEQ and JNE as long as `FL.E` is kept. -/
theorem exec_setFlags {i : Instr} {s t : State} {f : Flags} (h : exec i s = .next t) (hc : ∀ a b, i ≠ .cmp a b)
    (hj : f.e = s.flags.e ∨ ((∀ a, i ≠ .jeq a) ∧ ∀ a, i ≠ .jne a)) :
    exec i (s.setFlags f) = .next (t.setFlags f) := by
  cases i with
  | ldi ra imm =>
    refine settle_setFlags h ?_
    simp only [writeReg_setFlags, map_bind, bind_map_left]
    rfl
  | prn ra =>
    refine settle_setFlags h ?_
    simp only [readReg_setFlags, map_bind]
    rfl
  | mul ra rb =>
    refine settle_setFlags h ?_
    simp only [alu_setFlags, map_bind, bind_map_left]
    rfl
  | hlt =>
    obtain rfl := Host.Outcome.next.inj h
    rfl
  | push ra =>
    refine settle_setFlags h ?_
    simp only [State.setFlags_sp, State.setFlags_setSp, pushAddress, readReg_setFlags, memWrite_setFlags, map_bind,
      bind_map_left, apply_ite (Functor.map _)]
    rfl
  | pop ra =>
    refine settle_setFlags h ?_
    simp only [State.setFlags_sp, memRead_setFlags, writeReg_setFlags, map_bind, bind_map_left,
      apply_ite (Functor.map _)]
    rfl
  | jmp ra =>
    refine settle_setFlags h ?_
    simp only [readReg_setFlags, map_bind]
    rfl
  | cmp ra rb => exact absurd rfl (hc ra rb)
  | jeq ra =>
    have he : f.e = s.flags.e := hj.resolve_right fun ⟨hjeq, _⟩ => hjeq ra rfl
    exact settle_setFlags h (he ▸ jumpIf_setFlags f.e ra s f)
  | jne ra =>
    have he : f.e = s.flags.e := hj.resolve_right fun ⟨_, hjne⟩ => hjne ra rfl
    exact settle_setFlags h (he ▸ jumpIf_setFlags (!f.e) ra s f)

/-- A CMP completes, in the same state whatever the flags were, or aborts and leaves them (45_compare_branch.md R70). -/
theorem exec_cmp_setFlags {ra rb : Byte} {s t : State} (f : Flags) (h : exec (.cmp ra rb) s = .next t) :
    (t.run = s.run ∧ t.flags.exactlyOne = true ∧ exec (.cmp ra rb) (s.setFlags f) = .next t) ∨
    ((∃ c, t.run = .aborted c) ∧ exec (.cmp ra rb) (s.setFlags f) = .next (t.setFlags f)) := by
  simp only [exec, execCmp, readReg_setFlags] at h ⊢
  cases ha : readReg ra s with
  | error c =>
    simp only [ha, error_bind, settle_error, Host.Outcome.next.injEq] at h ⊢
    exact .inr ⟨⟨c, h ▸ rfl⟩, h ▸ rfl⟩
  | ok a =>
    cases hb : readReg rb s with
    | error c =>
      simp only [ha, hb, ok_bind, error_bind, settle_error, Host.Outcome.next.injEq] at h ⊢
      exact .inr ⟨⟨c, h ▸ rfl⟩, h ▸ rfl⟩
    | ok b =>
      simp only [ha, hb, ok_bind, settle_ok, Host.Outcome.next.injEq] at h ⊢
      exact .inl ⟨h ▸ rfl, h ▸ compareFlags_exactlyOne a b, h ▸ rfl⟩

/-! ### Steps -/

/-- A step with the flags replaced, `FL.E` kept for JEQ and JNE: a completed CMP leads to the same state, any other step
to the same state with the replaced flags. -/
theorem step_setFlags {s t : State} {f : Flags} (h : step s = .next t)
    (hj : f.e = s.flags.e ∨ (s.cell s.pc.toNat ≠ opcJeq ∧ s.cell s.pc.toNat ≠ opcJne)) :
    (s.cell s.pc.toNat = opcCmp ∧ t.run = .running ∧ t.flags.exactlyOne = true ∧ step (s.setFlags f) = .next t) ∨
    (¬ (s.cell s.pc.toNat = opcCmp ∧ t.run = .running) ∧ step (s.setFlags f) = .next (t.setFlags f)) := by
  obtain ⟨hr, ⟨hp, rfl⟩ | ⟨hp, i, hd, hi⟩ | ⟨hp, hd, rfl⟩⟩ := step_cases h
  · exact .inr ⟨by simp, step_fetch_past_end (s := s.setFlags f) hr hp⟩
  · have hop := encode_head_of_decodeSlot hd
    have hstep : step (s.setFlags f) = exec i (s.setFlags f) := step_decoded hr hp hd
    rw [hstep]
    by_cases hc : ∃ ra rb, i = .cmp ra rb
    · obtain ⟨ra, rb, rfl⟩ := hc
      have hcell : s.cell s.pc.toNat = opcCmp := (Option.some.inj hop).symm
      obtain ⟨hrun, hone, hnext⟩ | ⟨⟨c, hrun⟩, hnext⟩ := exec_cmp_setFlags f hi
      · exact .inl ⟨hcell, hrun.trans hr, hone, hnext⟩
      · exact .inr ⟨by simp [hrun], hnext⟩
    · refine .inr ⟨fun ⟨hcell, _⟩ => ?_, exec_setFlags hi (fun a b hab => hc ⟨a, b, hab⟩)
        (hj.imp_right fun ⟨hjeq, hjne⟩ => ?_)⟩
      · rw [hcell, decodeSlot_cmp] at hd
        exact hc ⟨_, _, (Option.some.inj hd).symm⟩
      · constructor
        · rintro a rfl
          exact hjeq (Option.some.inj hop).symm
        · rintro a rfl
          exact hjne (Option.some.inj hop).symm
  · exact .inr ⟨by simp, step_unrecognized (s := s.setFlags f) hr hp hd⟩

/-- A step that changes the flags is a completed CMP: any other commutes with replacing the flags by themselves. -/
theorem cmp_completed_of_flags_ne {s t : State} (h : step s = .next t) (hf : t.flags ≠ s.flags) :
    s.cell s.pc.toNat = opcCmp ∧ t.run = .running := by
  obtain ⟨hcell, hrun, -⟩ | ⟨-, hsame⟩ := step_setFlags (f := s.flags) h (.inl rfl)
  · exact ⟨hcell, hrun⟩
  · rw [State.setFlags_self, h, Host.Outcome.next.injEq] at hsame
    exact absurd (congrArg State.flags hsame) hf

/-- Settles O26: every step but a completed CMP commutes with replacing the flags, and JEQ and JNE test `FL.E` alone. -/
theorem flagsWrittenByCmpReadByConditionalJumps : Obligations.FlagsWrittenByCmpReadByConditionalJumps := by
  refine ⟨fun s t => cmp_completed_of_flags_ne, fun s t f h hj => ?_, fun ra s f hra => ?_⟩
  · obtain ⟨hcell, hrun, hone, hnext⟩ | ⟨hno, hnext⟩ := step_setFlags h hj
    · exact ⟨t.flags, hnext, fun _ => ⟨rfl, hone⟩, fun hno => absurd ⟨hcell, hrun⟩ hno⟩
    · exact ⟨f, hnext, fun ⟨hcell, hrun, _⟩ => absurd ⟨hcell, hrun⟩ hno, fun _ => rfl⟩
  · simp only [exec, execJeq, execJne, jumpIf_ok hra, settle_ok]
    cases f.e <;> exact ⟨rfl, rfl⟩

end Sys2Proof.Machine
end

section
/-! PROOF of O3 (30_encoding.md R44): the operand count. The idea: the count the decoder goes by, the byte's top two bits,
is the operand count of the row the byte dispatches to, and no row has more than two operands. -/
namespace Sys2Proof

/-- Bits 7:6 of a byte are the byte shifted right by 6. -/
theorem toNat_shiftRight_six (ir : Byte) : (ir >>> 6).toNat = declaredCount ir := by
  rw [declaredCount_eq, BitVec.toNat_ushiftRight, Nat.shiftRight_eq_div_pow]

/-- No row of the instruction table has more than two operands (30_encoding.md R43). -/
theorem Instr.operandCount_le_two (i : Instr) : i.operandCount ≤ 2 := by
  cases i <;> simp [Instr.operandCount]

/-- In each of the ten rows the opcode byte declares as many operands as the instruction has. -/
theorem operandCount_of_decodeSlot {ir a b : Byte} {i : Instr} (h : decodeSlot ir a b = some i) :
    i.operandCount = declaredCount ir := by
  obtain ⟨rfl, rfl⟩ | ⟨rfl, rfl⟩ | ⟨rfl, rfl⟩ | ⟨rfl, rfl⟩ | ⟨rfl, rfl⟩ | ⟨rfl, rfl⟩ | ⟨rfl, rfl⟩ | ⟨rfl, rfl⟩ |
    ⟨rfl, rfl⟩ | ⟨rfl, rfl⟩ := decodeSlot_cases h <;> rfl

/-- Settles O3: the byte's declared count is the operand count of its row, and the decoder drops that many bytes. -/
theorem operandCountIsTopTwoBits : Obligations.OperandCountIsTopTwoBits := by
  intro ir bytes rest i h
  obtain ⟨hslot, hlen, rfl⟩ := decode_ok h
  have hcount : i.operandCount = declaredCount ir := operandCount_of_decodeSlot hslot
  rw [toNat_shiftRight_six]
  refine ⟨hcount ▸ i.operandCount_le_two, hcount, ?_⟩
  rw [List.length_drop, Nat.sub_add_cancel hlen]

end Sys2Proof
end

section
/-! PROOF of O2, O4 and O1 (30_encoding.md sections 2 to 4): decoder and encoder. The idea: a slot that decodes is the
opcode byte and as many operand cells as that byte declares, and those cells are the encoding of the instruction. So the
encoding determines the instruction, and the cells beyond it do not count. -/
namespace Sys2Proof

/-- The decoder where the slot has a handler and enough bytes are left. -/
theorem decode_of_slot {ir : Byte} {rest : List Byte} {i : Instr}
    (hd : decodeSlot ir (rest.getD 0 0) (rest.getD 1 0) = some i) (hl : declaredCount ir ≤ rest.length) :
    decode (ir :: rest) = .ok (i, rest.drop (declaredCount ir)) := by
  simp only [decode_cons, hd, if_pos hl]

/-- An encoded instruction is an opcode byte and the operands it declares, and with any bytes after it its slot decodes to
the instruction. -/
theorem decodeSlot_encode (i : Instr) (rest : List Byte) :
    ∃ ir operands, encode i = ir :: operands ∧ operands.length = declaredCount ir ∧
      decodeSlot ir ((operands ++ rest).getD 0 0) ((operands ++ rest).getD 1 0) = some i := by
  cases i <;> exact ⟨_, _, rfl, rfl, rfl⟩

/-- The cells of a slot that its opcode byte declares are the encoding of what it decodes to. -/
theorem encode_of_decodeSlot {ir a b : Byte} {i : Instr} (h : decodeSlot ir a b = some i) :
    encode i = ir :: [a, b].take (declaredCount ir) := by
  obtain ⟨rfl, rfl⟩ | ⟨rfl, rfl⟩ | ⟨rfl, rfl⟩ | ⟨rfl, rfl⟩ | ⟨rfl, rfl⟩ | ⟨rfl, rfl⟩ | ⟨rfl, rfl⟩ | ⟨rfl, rfl⟩ |
    ⟨rfl, rfl⟩ | ⟨rfl, rfl⟩ := decodeSlot_cases h <;> rfl

/-- No opcode byte with a handler declares more than two operands (30_encoding.md R44). -/
theorem declaredCount_le_two {ir a b : Byte} {i : Instr} (h : decodeSlot ir a b = some i) : declaredCount ir ≤ 2 :=
  operandCount_of_decodeSlot h ▸ i.operandCount_le_two

/-- At most two bytes taken from the head of a list, read one by one, and the rest of it are the list. -/
theorem take_getD_append_drop {n : Nat} {bytes : List Byte} (hn : n ≤ 2) (hl : n ≤ bytes.length) :
    [bytes.getD 0 0, bytes.getD 1 0].take n ++ bytes.drop n = bytes := by
  match n, bytes with
  | 0, _ => rfl
  | 1, _ :: _ => rfl
  | 2, _ :: _ :: _ => rfl

/-- An encoded instruction decodes to itself and leaves what follows. -/
theorem decode_encode (i : Instr) (rest : List Byte) : decode (encode i ++ rest) = .ok (i, rest) := by
  obtain ⟨ir, operands, he, hl, hd⟩ := decodeSlot_encode i rest
  rw [he, List.cons_append, decode_of_slot hd (by simp [hl]), ← hl, List.drop_left]

/-- What decodes is the encoding of what it decodes to, followed by what is left over. -/
theorem eq_encode_of_decode {bytes rest : List Byte} {i : Instr} (h : decode bytes = .ok (i, rest)) :
    bytes = encode i ++ rest := by
  cases bytes with
  | nil => cases h
  | cons ir tail =>
    obtain ⟨hd, hl, rfl⟩ := decode_ok h
    rw [encode_of_decodeSlot hd, List.cons_append, take_getD_append_drop (declaredCount_le_two hd) hl]

theorem encode_injective {i j : Instr} (h : encode i = encode j) : i = j := by
  have hi := decode_encode i []
  rw [h, decode_encode j []] at hi
  exact (Prod.mk.inj (Except.ok.inj hi)).1.symm

/-- Settles O2: the declared operand cells are the encoding, in both directions. -/
theorem decodeAndEncodeAgree : Obligations.DecodeAndEncodeAgree :=
  ⟨decode_encode, fun _ _ _ => eq_encode_of_decode⟩

/-- Whether a slot decodes depends on its opcode byte alone (40_sequencer.md R56). -/
theorem decodeSlot_none_congr {ir a b : Byte} (a' b' : Byte) (h : decodeSlot ir a b = none) :
    decodeSlot ir a' b' = none :=
  (decodeSlot_none_iff ir a' b').mpr ((decodeSlot_none_iff ir a b).mp h)

/-- Settles O4: two slots that agree on the declared cells have instructions with the same encoding, so the same one. -/
theorem unpassedCellsHaveNoEffect : Obligations.UnpassedCellsHaveNoEffect := by
  intro ir a b a' b' ha hb
  rw [toNat_shiftRight_six] at ha hb
  cases hi : decodeSlot ir a b with
  | none => exact decodeSlot_none_congr a' b' hi
  | some i =>
    cases hj : decodeSlot ir a' b' with
    | none => rw [decodeSlot_none_congr a b hj] at hi; cases hi
    | some j =>
      have hcells : [a', b'].take (declaredCount ir) = [a, b].take (declaredCount ir) := by
        have hn := declaredCount_le_two hi
        obtain hn | hn | hn : declaredCount ir = 0 ∨ declaredCount ir = 1 ∨ declaredCount ir = 2 := by omega
        · simp [hn]
        · simp [hn, ha.resolve_left (by omega)]
        · simp [ha.resolve_left (by omega), hb.resolve_left (by omega)]
      have he : encode j = encode i := by rw [encode_of_decodeSlot hi, encode_of_decodeSlot hj, hcells]
      rw [encode_injective he]

/-- Settles O1: the first ten words are encodings with a byte after them; the last two begin with no opcode byte. -/
theorem writtenWordsDecode : Obligations.WrittenWordsDecode :=
  ⟨decode_encode (.ldi 0 5) [9], decode_encode (.prn 2) [9], decode_encode (.mul 2 3) [9], decode_encode .hlt [9],
    decode_encode (.push 7) [9], decode_encode (.pop 255) [9], decode_encode (.jmp 3) [9],
    decode_encode (.cmp 0 1) [9], decode_encode (.jeq 2) [9], decode_encode (.jne 1) [9], rfl, rfl⟩

end Sys2Proof
end

section
/-! SUPPORT for the proofs below: what a handler can do, said once for all ten instructions. It completes in one state
(`Completes`), or it aborts with one cause (`AbortsWith`) and leaves the state it began in with only `run` and `out` changed.
Both relations are tied to `exec` by `exec_of_completes`, `exec_of_aborts` and `exec_cases`. -/
namespace Sys2Proof.Machine

/-! ### Operand bytes that name a register, and the first that names none -/

theorem regIndex_of_toNat {b : Byte} {r : RegIx} (h : b.toNat = r.val) : regIndex b = .ok r := by
  rw [regIndex_ok (h ▸ r.isLt)]
  exact congrArg _ (Fin.ext h)

theorem readReg_of_toNat {b : Byte} {r : RegIx} (h : b.toNat = r.val) (s : State) : readReg b s = .ok (s.reg r) := by
  simp only [readReg, regIndex_of_toNat h]

theorem writeReg_of_toNat {b : Byte} {r : RegIx} (h : b.toNat = r.val) (v : Byte) (s : State) :
    writeReg b v s = .ok (s.setReg r v) := by
  simp only [writeReg, regIndex_of_toNat h]

theorem isRegister_eq_false {b : Byte} : isRegister b = false ↔ 8 ≤ b.toNat := by
  simp [isRegister, Config.nreg]

/-- The first operand byte that names no register, of one operand and of two (60_exceptions.md R84). -/
theorem firstBad_one {a k : Byte} : [a].find? (fun b => !isRegister b) = some k ↔ 8 ≤ a.toNat ∧ k = a := by
  rw [← isRegister_eq_false]
  cases ha : isRegister a <;> simp [ha, eq_comm]

theorem firstBad_two {a b k : Byte} :
    [a, b].find? (fun b => !isRegister b) = some k ↔
      (8 ≤ a.toNat ∧ k = a) ∨ (a.toNat < 8 ∧ 8 ≤ b.toNat ∧ k = b) := by
  rw [← Nat.not_le (a := 8) (b := a.toNat), ← isRegister_eq_false, ← isRegister_eq_false]
  cases ha : isRegister a <;> cases hb : isRegister b <;> simp [ha, hb, eq_comm]

/-! ### The stack operations as state updates -/

/-- PUSH of register `r` but for `pc` (44_stack.md R67): the stack pointer down by one, then the register stored there. -/
def State.pushed (s : State) (r : RegIx) : State :=
  { s.setSp (trunc8 (pushAddress s)) with
    mem := memSet s.mem (pushAddress s) ((s.setSp (trunc8 (pushAddress s))).reg r) }

/-- The stack pointer as POP into `r` increments it: as it stands after the load (44_stack.md R68). -/
def State.loadedSp (s : State) (r : RegIx) : Byte := (s.setReg r (s.cell s.sp.toNat)).sp

/-- POP into register `r` but for `pc` (44_stack.md R68): the cell loaded, then the stack pointer up by one. -/
def State.popped (s : State) (r : RegIx) : State :=
  (s.setReg r (s.cell s.sp.toNat)).setSp (trunc8 ((s.loadedSp r).toNat + 1))

@[simp] theorem State.pushed_pc (s : State) (r : RegIx) : (s.pushed r).pc = s.pc := rfl
@[simp] theorem State.pushed_flags (s : State) (r : RegIx) : (s.pushed r).flags = s.flags := rfl
@[simp] theorem State.pushed_run (s : State) (r : RegIx) : (s.pushed r).run = s.run := rfl
@[simp] theorem State.pushed_out (s : State) (r : RegIx) : (s.pushed r).out = s.out := rfl

@[simp] theorem State.popped_pc (s : State) (r : RegIx) : (s.popped r).pc = s.pc := rfl
@[simp] theorem State.popped_flags (s : State) (r : RegIx) : (s.popped r).flags = s.flags := rfl
@[simp] theorem State.popped_mem (s : State) (r : RegIx) : (s.popped r).mem = s.mem := rfl
@[simp] theorem State.popped_run (s : State) (r : RegIx) : (s.popped r).run = s.run := rfl
@[simp] theorem State.popped_out (s : State) (r : RegIx) : (s.popped r).out = s.out := rfl
@[simp] theorem State.popped_cell (s : State) (r : RegIx) (a : Nat) : (s.popped r).cell a = s.cell a := rfl

theorem pushAddress_lt (s : State) : pushAddress s < 256 :=
  Nat.lt_of_le_of_lt (Nat.sub_le _ _) s.sp_lt

/-- A register after PUSH: only the stack pointer has moved. -/
theorem State.pushed_reg (s : State) (r q : RegIx) :
    (s.pushed r).reg q = if q = spIndex then trunc8 (pushAddress s) else s.reg q :=
  s.setSp_reg (trunc8 (pushAddress s)) q

theorem State.pushed_reg_other (s : State) (r : RegIx) {q : RegIx} (h : q ≠ spIndex) : (s.pushed r).reg q = s.reg q := by
  rw [State.pushed_reg, if_neg h]

@[simp] theorem State.pushed_sp_toNat (s : State) (r : RegIx) : (s.pushed r).sp.toNat = s.sp.toNat - 1 := by
  have hsp : (s.pushed r).sp = trunc8 (pushAddress s) := by rw [State.sp, State.pushed_reg, if_pos rfl]
  rw [hsp, trunc8_toNat (pushAddress_lt s), pushAddress]

theorem State.pushed_wf {s : State} (h : Memory.wf s.mem = true) (r : RegIx) : Memory.wf (s.pushed r).mem = true :=
  Memory.wf_memSet _ h (pushAddress_lt s)

/-- A cell after PUSH (20_memory.md R33, R34): the one below the old stack pointer holds the register as it now stands. -/
theorem State.pushed_cell {s : State} (h : Memory.wf s.mem = true) (r : RegIx) (a : Nat) :
    (s.pushed r).cell a = if a = s.sp.toNat - 1 then (s.pushed r).reg r else s.cell a :=
  Memory.get_memSet h (pushAddress s) _ a

/-- What POP increments: the loaded value where it pops the stack pointer itself, the stack pointer elsewhere. -/
theorem State.loadedSp_eq (s : State) (r : RegIx) :
    s.loadedSp r = if spIndex = r then s.cell s.sp.toNat else s.sp := s.setReg_sp r _

theorem State.loadedSp_self (s : State) : s.loadedSp spIndex = s.cell s.sp.toNat := by
  rw [State.loadedSp_eq, if_pos rfl]

theorem State.loadedSp_other (s : State) {r : RegIx} (h : r ≠ spIndex) : s.loadedSp r = s.sp := by
  rw [State.loadedSp_eq, if_neg (Ne.symm h)]

theorem State.popped_sp_toNat {s : State} {r : RegIx} (h : (s.loadedSp r).toNat ≠ 255) :
    (s.popped r).sp.toNat = (s.loadedSp r).toNat + 1 := by
  have := (s.loadedSp r).isLt
  rw [State.popped, State.setSp_sp, trunc8_toNat (by omega)]

/-- A register other than the stack pointer after POP. -/
theorem State.popped_reg (s : State) (r : RegIx) {q : RegIx} (h : q ≠ spIndex) :
    (s.popped r).reg q = if q = r then s.cell s.sp.toNat else s.reg q := by
  rw [State.popped, State.setSp_reg, if_neg h, State.setReg_reg]

/-! ### The conditional jump as a state update -/

/-- A conditional jump through a register that holds `v` (45_compare_branch.md R72, R73). -/
def State.branch (s : State) (taken : Bool) (v : Byte) : State := if taken then s.jumpTo v else s.advance 2

@[simp] theorem State.branch_reg (s : State) (c : Bool) (v : Byte) (q : RegIx) : (s.branch c v).reg q = s.reg q := by
  cases c <;> rfl
@[simp] theorem State.branch_flags (s : State) (c : Bool) (v : Byte) : (s.branch c v).flags = s.flags := by
  cases c <;> rfl
@[simp] theorem State.branch_mem (s : State) (c : Bool) (v : Byte) : (s.branch c v).mem = s.mem := by cases c <;> rfl
@[simp] theorem State.branch_run (s : State) (c : Bool) (v : Byte) : (s.branch c v).run = s.run := by cases c <;> rfl
@[simp] theorem State.branch_out (s : State) (c : Bool) (v : Byte) : (s.branch c v).out = s.out := by cases c <;> rfl
@[simp] theorem State.branch_cell (s : State) (c : Bool) (v : Byte) (a : Nat) : (s.branch c v).cell a = s.cell a := by
  cases c <;> rfl
@[simp] theorem State.branch_pc (s : State) (c : Bool) (v : Byte) :
    (s.branch c v).pc = if c then zext9 v else s.pc + 2 := by cases c <;> rfl

/-! ### Completion and abort -/

/-- An outcome is at most one next state. -/
theorem next_unique {o : Host.Outcome State Fault Refusal} {t u : State} (ht : o = .next t) (hu : o = .next u) : t = u :=
  Host.Outcome.next.inj (ht.symm.trans hu)

/-- Instruction `i` begun in `s` completes in the state given (41_load_print.md R59, R60; 42_alu.md R63; 43_halt.md R65;
44_stack.md R67, R68; 45_compare_branch.md R70 to R73). -/
inductive Completes (s : State) : Instr → State → Prop
  | ldi {ra : Byte} {r : RegIx} (hr : ra.toNat = r.val) (imm : Byte) :
      Completes s (.ldi ra imm) ((s.setReg r imm).advance 3)
  | prn {ra : Byte} {r : RegIx} (hr : ra.toNat = r.val) :
      Completes s (.prn ra) ((s.emit (.print (s.reg r))).advance 2)
  | mul {ra rb : Byte} {r q : RegIx} (hr : ra.toNat = r.val) (hq : rb.toNat = q.val) :
      Completes s (.mul ra rb) ((s.setReg r (trunc8 ((s.reg r).toNat * (s.reg q).toNat))).advance 3)
  | hlt : Completes s .hlt (((s.emit .haltNotice).setRun .halted).advance 1)
  | push {ra : Byte} {r : RegIx} (hr : ra.toNat = r.val) (hsp : s.sp.toNat ≠ 0) :
      Completes s (.push ra) ((s.pushed r).advance 2)
  | pop {ra : Byte} {r : RegIx} (hr : ra.toNat = r.val) (hsp : (s.loadedSp r).toNat ≠ 255) :
      Completes s (.pop ra) ((s.popped r).advance 2)
  | jmp {ra : Byte} {r : RegIx} (hr : ra.toNat = r.val) : Completes s (.jmp ra) (s.jumpTo (s.reg r))
  | cmp {ra rb : Byte} {r q : RegIx} (hr : ra.toNat = r.val) (hq : rb.toNat = q.val) :
      Completes s (.cmp ra rb) ((s.setFlags (compareFlags (s.reg r) (s.reg q))).advance 3)
  | jeq {ra : Byte} {r : RegIx} (hr : ra.toNat = r.val) :
      Completes s (.jeq ra) (s.branch s.flags.e (s.reg r))
  | jne {ra : Byte} {r : RegIx} (hr : ra.toNat = r.val) :
      Completes s (.jne ra) (s.branch (!s.flags.e) (s.reg r))

/-- Instruction `i` begun in `s` aborts with the cause given: its first bad register operand, or a stack bound where the
index is good (60_exceptions.md R78, R80, R84). -/
inductive AbortsWith (s : State) : Instr → AbortCause → Prop
  | index {i : Instr} {k : Byte} (hk : i.regOperands.find? (fun b => !isRegister b) = some k) :
      AbortsWith s i (.registerIndex k)
  | push {ra : Byte} {r : RegIx} (hr : ra.toNat = r.val) (hsp : s.sp.toNat = 0) :
      AbortsWith s (.push ra) (.stackBounds .push)
  | pop {ra : Byte} {r : RegIx} (hr : ra.toNat = r.val) (hsp : (s.loadedSp r).toNat = 255) :
      AbortsWith s (.pop ra) (.stackBounds .pop)

/-- The handler of an instruction that completes. -/
theorem exec_of_completes {s t : State} {i : Instr} (h : Completes s i t) : exec i s = .next t := by
  cases h with
  | ldi hr imm => simp only [exec, execLdi, writeReg_of_toNat hr, ok_bind, settle_ok]
  | prn hr => simp only [exec, execPrn, readReg_of_toNat hr, ok_bind, settle_ok]
  | mul hr hq =>
    simp only [exec, execMul, alu, readReg_of_toNat hr, readReg_of_toNat hq, aluValue, writeReg_of_toNat hr, ok_bind,
      settle_ok]
  | hlt => rfl
  | push hr hsp =>
    simp only [exec, execPush, regIndex_of_toNat hr, if_neg hsp, readReg_of_toNat hr, memWrite_ok (pushAddress_lt s),
      ok_bind, settle_ok]
    rfl
  | pop hr hsp =>
    simp only [exec, execPop, regIndex_of_toNat hr, memRead_ok s.sp_lt, writeReg_of_toNat hr, ok_bind]
    rw [if_neg (show ¬ (s.setReg _ _).sp.toNat = 255 from hsp)]
    rfl
  | jmp hr => simp only [exec, execJmp, readReg_of_toNat hr, ok_bind, settle_ok]
  | cmp hr hq => simp only [exec, execCmp, readReg_of_toNat hr, readReg_of_toNat hq, ok_bind, settle_ok]
  | jeq hr => simp only [exec, execJeq, jumpIf, readReg_of_toNat hr, ok_bind, settle_ok, State.branch]
  | jne hr => simp only [exec, execJne, jumpIf, readReg_of_toNat hr, ok_bind, settle_ok, State.branch]

/-- The handler of an instruction with a bad register operand (60_exceptions.md R78). -/
theorem exec_bad_index {i : Instr} {k : Byte} (hk : i.regOperands.find? (fun b => !isRegister b) = some k) (s : State) :
    exec i s = .next (takeAbort (.registerIndex k) s) := by
  cases i with
  | ldi ra imm =>
    obtain ⟨ha, rfl⟩ := firstBad_one.mp hk
    simp only [exec, execLdi, writeReg_error ha, error_bind, settle_error]
  | prn ra =>
    obtain ⟨ha, rfl⟩ := firstBad_one.mp hk
    simp only [exec, execPrn, readReg_error ha, error_bind, settle_error]
  | mul ra rb =>
    obtain ⟨ha, rfl⟩ | ⟨ha, hb, rfl⟩ := firstBad_two.mp hk
    · simp only [exec, execMul, alu_first_index ha, error_bind, settle_error]
    · simp only [exec, execMul, alu_second_index ha hb, error_bind, settle_error]
  | hlt => cases hk
  | push ra =>
    obtain ⟨ha, rfl⟩ := firstBad_one.mp hk
    simp only [exec, execPush, regIndex_error ha, error_bind, settle_error]
  | pop ra =>
    obtain ⟨ha, rfl⟩ := firstBad_one.mp hk
    simp only [exec, execPop, regIndex_error ha, error_bind, settle_error]
  | jmp ra =>
    obtain ⟨ha, rfl⟩ := firstBad_one.mp hk
    simp only [exec, execJmp, readReg_error ha, error_bind, settle_error]
  | cmp ra rb =>
    obtain ⟨ha, rfl⟩ | ⟨ha, hb, rfl⟩ := firstBad_two.mp hk
    · simp only [exec, execCmp, readReg_error ha, error_bind, settle_error]
    · simp only [exec, execCmp, readReg_ok ha, readReg_error hb, ok_bind, error_bind, settle_error]
  | jeq ra =>
    obtain ⟨ha, rfl⟩ := firstBad_one.mp hk
    simp only [exec, execJeq, jumpIf_error ha, settle_error]
  | jne ra =>
    obtain ⟨ha, rfl⟩ := firstBad_one.mp hk
    simp only [exec, execJne, jumpIf_error ha, settle_error]

/-- The abort on the first operand, whatever the second is (60_exceptions.md R84). -/
theorem exec_first_index {i : Instr} {a : Byte} {more : List Byte} (hi : i.regOperands = a :: more) (ha : 8 ≤ a.toNat)
    (s : State) : exec i s = .next (takeAbort (.registerIndex a) s) :=
  exec_bad_index (by rw [hi, List.find?_cons_of_pos (by simp [isRegister_eq_false.mpr ha])]) s

/-- The abort on the second operand, where the first is good. -/
theorem exec_second_index {i : Instr} {a b : Byte} (hi : i.regOperands = [a, b]) (ha : a.toNat < 8) (hb : 8 ≤ b.toNat)
    (s : State) : exec i s = .next (takeAbort (.registerIndex b) s) :=
  exec_bad_index (by rw [hi, firstBad_two.mpr (.inr ⟨ha, hb, rfl⟩)]) s

/-- The handler of an instruction that aborts. -/
theorem exec_of_aborts {s : State} {i : Instr} {c : AbortCause} (h : AbortsWith s i c) :
    exec i s = .next (takeAbort c s) := by
  cases h with
  | index hk => exact exec_bad_index hk s
  | push hr hsp =>
    simp only [exec, execPush, regIndex_of_toNat hr, if_pos hsp, ok_bind, settle_error]
  | pop hr hsp =>
    simp only [exec, execPop, regIndex_of_toNat hr, memRead_ok s.sp_lt, writeReg_of_toNat hr, ok_bind]
    rw [if_pos (show (s.setReg _ _).sp.toNat = 255 from hsp), settle_error]

/-- Where no register operand is bad, the instruction completes or meets a stack bound. -/
theorem completes_or_stackBounds {i : Instr} (hw : i.wf = true) (s : State) :
    (∃ t, Completes s i t) ∨ ∃ dir, AbortsWith s i (.stackBounds dir) := by
  have hreg : ∀ b ∈ i.regOperands, ∃ r : RegIx, b.toNat = r.val := fun b hb =>
    ⟨⟨b.toNat, of_decide_eq_true (List.all_eq_true.mp hw b hb)⟩, rfl⟩
  cases i with
  | ldi ra imm =>
    obtain ⟨r, hr⟩ := hreg ra (.head _)
    exact .inl ⟨_, .ldi hr imm⟩
  | prn ra =>
    obtain ⟨r, hr⟩ := hreg ra (.head _)
    exact .inl ⟨_, .prn hr⟩
  | mul ra rb =>
    obtain ⟨r, hr⟩ := hreg ra (.head _)
    obtain ⟨q, hq⟩ := hreg rb (.tail _ (.head _))
    exact .inl ⟨_, .mul hr hq⟩
  | hlt => exact .inl ⟨_, .hlt⟩
  | push ra =>
    obtain ⟨r, hr⟩ := hreg ra (.head _)
    by_cases hsp : s.sp.toNat = 0
    · exact .inr ⟨.push, .push hr hsp⟩
    · exact .inl ⟨_, .push hr hsp⟩
  | pop ra =>
    obtain ⟨r, hr⟩ := hreg ra (.head _)
    by_cases hsp : (s.loadedSp r).toNat = 255
    · exact .inr ⟨.pop, .pop hr hsp⟩
    · exact .inl ⟨_, .pop hr hsp⟩
  | jmp ra =>
    obtain ⟨r, hr⟩ := hreg ra (.head _)
    exact .inl ⟨_, .jmp hr⟩
  | cmp ra rb =>
    obtain ⟨r, hr⟩ := hreg ra (.head _)
    obtain ⟨q, hq⟩ := hreg rb (.tail _ (.head _))
    exact .inl ⟨_, .cmp hr hq⟩
  | jeq ra =>
    obtain ⟨r, hr⟩ := hreg ra (.head _)
    exact .inl ⟨_, .jeq hr⟩
  | jne ra =>
    obtain ⟨r, hr⟩ := hreg ra (.head _)
    exact .inl ⟨_, .jne hr⟩

/-- Every instruction completes or aborts, in every state. -/
theorem completes_or_aborts (i : Instr) (s : State) : (∃ t, Completes s i t) ∨ ∃ c, AbortsWith s i c := by
  cases hk : i.regOperands.find? (fun b => !isRegister b) with
  | some k => exact .inr ⟨_, .index hk⟩
  | none =>
    have hw : i.wf = true := List.all_eq_true.mpr fun b hb => by simpa using List.find?_eq_none.mp hk b hb
    exact (completes_or_stackBounds hw s).imp_right fun ⟨dir, h⟩ => ⟨.stackBounds dir, h⟩

/-- Everything a handler that answers a next state can have done. -/
theorem exec_cases {i : Instr} {s t : State} (h : exec i s = .next t) :
    Completes s i t ∨ ∃ c, AbortsWith s i c ∧ t = takeAbort c s := by
  obtain ⟨u, hu⟩ | ⟨c, hc⟩ := completes_or_aborts i s
  · obtain rfl := next_unique (exec_of_completes hu) h
    exact .inl hu
  · exact .inr ⟨c, hc, next_unique h (exec_of_aborts hc)⟩

/-- A handler answers a next state in every state (40_sequencer.md R54). -/
theorem exec_total (i : Instr) (s : State) : ∃ t, exec i s = .next t := by
  obtain ⟨u, hu⟩ | ⟨c, hc⟩ := completes_or_aborts i s
  · exact ⟨u, exec_of_completes hu⟩
  · exact ⟨_, exec_of_aborts hc⟩

/-- The statements' words for an abort and for an unrecognized byte say what the machine does (60_exceptions.md R76, R77). -/
theorem takeAbort_eq_abortedFrom (c : AbortCause) (s : State) : takeAbort c s = abortedFrom s c := rfl

theorem takeUnrecognized_eq_faultedFrom (op : Byte) (s : State) : takeUnrecognized op s = faultedFrom s op := rfl

end Sys2Proof.Machine
end

section
/-! PROOF of O6 to O8, O10 to O15 and O9: the ten instructions, one by one (41_load_print.md to 45_compare_branch.md). The
idea: the state each handler completes in and the cause it aborts with are the constructors of `Completes` and `AbortsWith`;
what is left is what that state holds. -/
namespace Sys2Proof.Machine

/-- Settles O6. -/
theorem ldiLoadsTheImmediate : Obligations.LdiLoadsTheImmediate := by
  intro ra imm s
  refine ⟨rfl, fun h => ?_, fun h => exec_first_index (i := .ldi ra imm) rfl h s⟩
  exact exec_of_completes (.ldi (r := ⟨ra.toNat, h⟩) rfl imm)

/-- Settles O7. -/
theorem prnEmitsTheRegister : Obligations.PrnEmitsTheRegister := by
  intro ra s
  refine ⟨rfl, fun h => ?_, fun h => exec_first_index (i := .prn ra) rfl h s⟩
  exact exec_of_completes (.prn (r := ⟨ra.toNat, h⟩) rfl)

/-- Settles O8: `trunc8` is the remainder modulo 256. -/
theorem mulMultipliesModulo256 : Obligations.MulMultipliesModulo256 := by
  intro ra rb s
  refine ⟨rfl, fun h h' => ⟨_, BitVec.toNat_ofNat _ 8, ?_⟩,
    fun h => exec_first_index (i := .mul ra rb) rfl h s,
    fun h h' => exec_second_index (i := .mul ra rb) rfl h h' s⟩
  exact exec_of_completes (.mul (r := ⟨ra.toNat, h⟩) (q := ⟨rb.toNat, h'⟩) rfl rfl)

/-- Settles O10: the stack pointer, the registers and the cells are those of `State.pushed`. -/
theorem pushDecrementsThenStores : Obligations.PushDecrementsThenStores := by
  intro ra s hwf
  refine ⟨rfl, fun h hsp => ?_, fun h => exec_first_index (i := .push ra) rfl h s,
    fun h hsp => exec_of_aborts (.push (r := ⟨ra.toNat, h⟩) rfl hsp)⟩
  let r : RegIx := ⟨ra.toNat, h⟩
  exact ⟨_, exec_of_completes (.push (r := r) rfl hsp), s.pushed_sp_toNat r, fun q hq => s.pushed_reg_other r hq,
    State.pushed_cell hwf r, rfl, rfl, rfl, rfl⟩

/-- Settles O11: what POP increments is the loaded value where it pops the stack pointer, the stack pointer elsewhere. -/
theorem popReadsThenIncrements : Obligations.PopReadsThenIncrements := by
  intro ra s
  refine ⟨rfl, fun h hne hsp => ?_, fun he hsp => ?_, fun h => exec_first_index (i := .pop ra) rfl h s,
    fun h hne hsp => ?_, fun he hsp => ?_⟩
  · have hr : (⟨ra.toNat, h⟩ : RegIx) ≠ spIndex := fun hr => hne (congrArg Fin.val hr)
    have hload := s.loadedSp_other hr
    refine ⟨_, exec_of_completes (.pop (r := ⟨ra.toNat, h⟩) rfl (by rwa [hload])), ?_, ?_, fun q hq hqsp => ?_, rfl⟩
    · rw [State.advance_reg, State.popped_reg _ _ hr, if_pos rfl]
    · rw [State.advance_sp, State.popped_sp_toNat (by rwa [hload]), hload]
    · rw [State.advance_reg, State.popped_reg _ _ hqsp, if_neg (fun hqr => hq (congrArg Fin.val hqr))]
  · have hload := s.loadedSp_self
    refine ⟨_, exec_of_completes (.pop (r := spIndex) he (by rwa [hload])), ?_, fun q hq => ?_, rfl⟩
    · rw [State.advance_sp, State.popped_sp_toNat (by rwa [hload]), hload]
    · rw [State.advance_reg, State.popped_reg _ _ hq, if_neg hq]
  · have hr : (⟨ra.toNat, h⟩ : RegIx) ≠ spIndex := fun hr => hne (congrArg Fin.val hr)
    exact exec_of_aborts (.pop (r := ⟨ra.toNat, h⟩) rfl (by rwa [s.loadedSp_other hr]))
  · exact exec_of_aborts (.pop (r := spIndex) he (by rwa [s.loadedSp_self]))

/-- Settles O12. -/
theorem jmpSetsPcFromRegister : Obligations.JmpSetsPcFromRegister := by
  intro ra s
  refine ⟨rfl, fun h => ⟨_, zext9_toNat _, ?_⟩, fun h => exec_first_index (i := .jmp ra) rfl h s⟩
  exact exec_of_completes (.jmp (r := ⟨ra.toNat, h⟩) rfl)

/-- Settles O13: the flags are those of the compare on unsigned values. -/
theorem cmpSetsExactlyOneFlag : Obligations.CmpSetsExactlyOneFlag := by
  intro ra rb s
  refine ⟨rfl, fun h h' => ?_, fun h => exec_first_index (i := .cmp ra rb) rfl h s,
    fun h h' => exec_second_index (i := .cmp ra rb) rfl h h' s⟩
  refine ⟨compareFlags s.regs[ra.toNat] s.regs[rb.toNat], ?_, by simp, by simp, by simp, compareFlags_exactlyOne _ _⟩
  exact exec_of_completes (.cmp (r := ⟨ra.toNat, h⟩) (q := ⟨rb.toNat, h'⟩) rfl rfl)

/-- Settles O14: the jump is taken exactly on `FL.E`. -/
theorem jeqJumpsExactlyWhenEqual : Obligations.JeqJumpsExactlyWhenEqual := by
  intro ra s
  refine ⟨rfl, fun h => ?_, fun h => exec_first_index (i := .jeq ra) rfl h s⟩
  have hexec := exec_of_completes (.jeq (s := s) (r := ⟨ra.toNat, h⟩) rfl)
  refine ⟨fun he => ⟨_, zext9_toNat _, ?_⟩, fun he => ?_⟩
  · rw [hexec, he]; rfl
  · rw [hexec, he]; rfl

/-- Settles O15: the jump is taken exactly when `FL.E` is clear. -/
theorem jneJumpsExactlyWhenNotEqual : Obligations.JneJumpsExactlyWhenNotEqual := by
  intro ra s
  refine ⟨rfl, fun h => ?_, fun h => exec_first_index (i := .jne ra) rfl h s⟩
  have hexec := exec_of_completes (.jne (s := s) (r := ⟨ra.toNat, h⟩) rfl)
  refine ⟨fun he => ⟨_, zext9_toNat _, ?_⟩, fun he => ?_⟩
  · rw [hexec, he]; rfl
  · rw [hexec, he]; rfl

/-- The step of a machine that has halted (10_state.md R21). -/
theorem step_halted {s : State} (h : s.run = .halted) : step s = .fault .halted := by
  simp only [step, stepWith, h]

/-- Settles O9: HLT completes in every state, and the fetch at 254 and 255 does not reach it. -/
theorem hltHaltsAndAdvancesByOne : Obligations.HltHaltsAndAdvancesByOne := by
  intro s
  refine ⟨rfl, exec_of_completes .hlt, fun t ht => ?_, decodeSlot_hlt, fun hr hp _ => ?_⟩
  · obtain rfl := next_unique (exec_of_completes .hlt) ht
    exact step_halted rfl
  · have hmax : max 256 s.pc.toNat = 256 := by omega
    rw [step_fetch_past_end hr (by omega), hmax, takeAbort_eq_abortedFrom]

end Sys2Proof.Machine
end

section
/-! PROOF of O16 and O17 (42_alu.md R61, R64): the ALU and the optional ADD, from what the ALU does on two registers that
exist and on a bad index. -/
namespace Sys2Proof.Machine

/-- Settles O16. -/
theorem aluAddsMultipliesRejectsOthers : Obligations.AluAddsMultipliesRejectsOthers := by
  intro ra rb s
  refine ⟨fun h h' => ⟨⟨_, BitVec.toNat_ofNat _ 8, ?_⟩, ⟨_, BitVec.toNat_ofNat _ 8, ?_⟩, fun n => ?_⟩,
    fun op h => alu_first_index h op rb s, fun op h h' => alu_second_index h h' op s⟩
  · exact alu_ok h h' .add s
  · exact alu_ok h h' .mul s
  · exact alu_ok h h' (.other n) s

/-- The byte of the optional ADD has no handler of its own (90_conflicts.md C2). -/
theorem decodeSlot_add (a b : Byte) : decodeSlot opcAdd a b = none := rfl

/-- A cycle with ADD dispatched differs from one without only at the byte of ADD (42_alu.md R64). -/
theorem dispatchSlot_of_ne_add {c : Slot} (h : c.ir ≠ opcAdd) (s : State) :
    dispatchSlot true c s = dispatchSlot false c s := by
  simp [dispatchSlot, h]

/-- With ADD dispatched, the step at its byte is the ADD of the two cells after it. -/
theorem stepWith_add {s : State} (hr : s.run = .running) (hp : s.pc.toNat ≤ 253) (hc : s.cell s.pc.toNat = opcAdd) :
    stepWith true s = execAdd (s.cell (s.pc.toNat + 1)) (s.cell (s.pc.toNat + 2)) s := by
  simp only [stepWith_running hr, cycle, fetch_ok hp, hc, dispatchSlot, decodeSlot_add]
  rfl

/-- Settles O17. -/
theorem optionalAddOnlyWhenDispatched : Obligations.OptionalAddOnlyWhenDispatched := by
  intro s hr hp
  refine ⟨fun hc => ?_, fun hc => ⟨?_, fun h h' => ⟨_, BitVec.toNat_ofNat _ 8, ?_⟩, fun h => ?_, fun h h' => ?_⟩⟩
  · simp only [stepWith_running hr, step_running hr, cycle, fetch_ok hp]
    exact dispatchSlot_of_ne_add hc s
  · have hd : decodeSlot (s.cell s.pc.toNat) (s.cell (s.pc.toNat + 1)) (s.cell (s.pc.toNat + 2)) = none := by
      rw [hc]
      exact decodeSlot_add _ _
    rw [step_unrecognized hr hp hd, hc, takeUnrecognized_eq_faultedFrom]
  · rw [stepWith_add hr hp hc, execAdd, alu_ok h h' .add s]
    rfl
  · rw [stepWith_add hr hp hc, execAdd, alu_first_index h, error_bind, settle_error, takeAbort_eq_abortedFrom]
  · rw [stepWith_add hr hp hc, execAdd, alu_second_index h h', error_bind, settle_error, takeAbort_eq_abortedFrom]

end Sys2Proof.Machine
end

section
/-! PROOF of O18 to O22 (40_sequencer.md R54 to R57, 30_encoding.md R47, R48): the sequencer. The idea: a running machine
fetches or aborts, and what it fetched decodes or faults, so it always has a step; the three cells decide which. -/
namespace Sys2Proof.Machine

/-- Settles O18: only the slot at the head of the three cells counts. -/
theorem stepRunsTheDecodedInstruction : Obligations.StepRunsTheDecodedInstruction :=
  fun _ _ _ hr hp hd => step_decoded hr hp (decode_ok hd).1

/-- Settles O19: the first address out of range is 256, or `pc` where it is greater. -/
theorem fetchPastMemoryEndAborts : Obligations.FetchPastMemoryEndAborts := by
  intro s hr
  refine ⟨fun hp => ?_, fun hp => ?_, fun hp => ?_⟩
  · rw [step_fetch_past_end hr (by omega), hp, takeAbort_eq_abortedFrom]; rfl
  · rw [step_fetch_past_end hr (by omega), hp, takeAbort_eq_abortedFrom]; rfl
  · rw [step_fetch_past_end hr (by omega), Nat.max_eq_right hp, takeAbort_eq_abortedFrom]

/-- A byte from 0xC0 up declares three operands, which no handler has (30_encoding.md R48). -/
theorem decodeSlot_eq_none_of_ge {ir : Byte} (h : 0xC0 ≤ ir.toNat) (a b : Byte) : decodeSlot ir a b = none := by
  cases hd : decodeSlot ir a b with
  | none => rfl
  | some i =>
    have hn := declaredCount_le_two hd
    rw [declaredCount_eq] at hn
    omega

/-- Settles O20. -/
theorem unrecognizedByteFaults : Obligations.UnrecognizedByteFaults := by
  intro s hr hp
  exact ⟨fun hn => step_unrecognized hr hp ((decodeSlot_none_iff _ _ _).mpr hn),
    fun hge => step_unrecognized hr hp (decodeSlot_eq_none_of_ge hge _ _)⟩

/-- A running machine has a step (40_sequencer.md R54). -/
theorem step_total {s : State} (hr : s.run = .running) : ∃ t, step s = .next t := by
  by_cases hp : s.pc.toNat ≤ 253
  · cases hd : decodeSlot (s.cell s.pc.toNat) (s.cell (s.pc.toNat + 1)) (s.cell (s.pc.toNat + 2)) with
    | none => exact ⟨_, step_unrecognized hr hp hd⟩
    | some i =>
      rw [step_decoded hr hp hd]
      exact exec_total i s
  · exact ⟨_, step_fetch_past_end hr (by omega)⟩

theorem step_faulted {s : State} {op : Byte} (h : s.run = .faulted op) : step s = .fault (.faulted op) := by
  simp only [step, stepWith, h]

theorem step_aborted {s : State} {c : AbortCause} (h : s.run = .aborted c) : step s = .fault (.aborted c) := by
  simp only [step, stepWith, h]

/-- A step that answers a fault is one of an ended run, and the fault says which end it was (10_state.md R21). -/
theorem run_of_step_fault {s : State} {f : Fault} (h : step s = .fault f) :
    (s.run = .halted ∧ f = .halted) ∨ (∃ op, s.run = .faulted op ∧ f = .faulted op) ∨
      ∃ c, s.run = .aborted c ∧ f = .aborted c := by
  cases hr : s.run with
  | running =>
    obtain ⟨t, ht⟩ := step_total hr
    rw [h] at ht
    cases ht
  | halted => exact .inl ⟨rfl, (Host.Outcome.fault.inj ((step_halted hr).symm.trans h)).symm⟩
  | faulted op => exact .inr (.inl ⟨op, rfl, (Host.Outcome.fault.inj ((step_faulted hr).symm.trans h)).symm⟩)
  | aborted c => exact .inr (.inr ⟨c, rfl, (Host.Outcome.fault.inj ((step_aborted hr).symm.trans h)).symm⟩)

/-- Settles O21. -/
theorem stepExistsExactlyWhileRunning : Obligations.StepExistsExactlyWhileRunning := by
  refine ⟨fun s => ⟨step_total, fun ⟨_, h⟩ => running_of_step h⟩, fun s => ⟨step_halted, fun h => ?_⟩,
    fun s op => ⟨step_faulted, fun h => ?_⟩, fun s c => ⟨step_aborted, fun h => ?_⟩, exec_total⟩
  all_goals
    obtain ⟨hr, hf⟩ | ⟨_, hr, hf⟩ | ⟨_, hr, hf⟩ := run_of_step_fault h <;> cases hf
    exact hr

/-! ### An instruction placed where the next step fetches (log entry 18) -/

theorem readyToFetch_pc_le (s : State) : (readyToFetch s).pc.toNat ≤ 253 := by
  simp only [readyToFetch]
  split
  · assumption
  · decide

/-- The cells after a word is placed: the three at `pc` are the word's, the others are as before. -/
theorem withFetchWord_cell {s : State} (h : Memory.wf s.mem = true) (nbits w a : Nat) :
    (s.withFetchWord nbits w).cell a =
      if (readyToFetch s).pc.toNat ≤ a ∧ a < (readyToFetch s).pc.toNat + 3
      then [tableByte nbits w 0, tableByte nbits w 1, tableByte nbits w 2].getD (a - (readyToFetch s).pc.toNat) 0
      else s.cell a := by
  have hp := readyToFetch_pc_le s
  exact Memory.get_memSetAll h (by simp only [List.length_cons, List.length_nil]; omega) a

/-- The cell `k` after the place of the next fetch is the word's byte `k`. -/
theorem withFetchWord_cell_at {s : State} (h : Memory.wf s.mem = true) (nbits w : Nat) {k : Nat} (hk : k < 3) :
    (s.withFetchWord nbits w).cell ((readyToFetch s).pc.toNat + k) =
      [tableByte nbits w 0, tableByte nbits w 1, tableByte nbits w 2].getD k 0 := by
  rw [withFetchWord_cell h, if_pos (by omega), Nat.add_sub_cancel_left]

/-- A table word that decodes is a slot that decodes. -/
theorem decodeSlot_of_decodeTableWord {nbits w : Nat} {i : Instr} (h : decodeTableWord nbits w = some i) :
    decodeSlot (tableByte nbits w 0) (tableByte nbits w 1) (tableByte nbits w 2) = some i := by
  unfold decodeTableWord at h
  split at h
  · next hd =>
    cases h
    exact (decode_ok hd).1
  · cases h

/-- Settles O22: the fetch of the state made ready reads the three cells just stored. -/
theorem placedInstructionIsTheNextRun : Obligations.PlacedInstructionIsTheNextRun := by
  intro s nbits w i hwf hd
  refine ⟨step_decoded rfl (readyToFetch_pc_le s) ?_, rfl, rfl, rfl, fun hr hp => ?_⟩
  · have h0 := withFetchWord_cell_at hwf nbits w (show 0 < 3 by decide)
    have h1 := withFetchWord_cell_at hwf nbits w (show 1 < 3 by decide)
    have h2 := withFetchWord_cell_at hwf nbits w (show 2 < 3 by decide)
    exact h0.symm ▸ h1.symm ▸ h2.symm ▸ decodeSlot_of_decodeTableWord hd
  · have hpc : (readyToFetch s).pc = s.pc := if_pos hp
    refine ⟨hr.symm, hpc, fun a ha => ?_⟩
    rw [withFetchWord_cell hwf, hpc, if_neg (by omega)]

end Sys2Proof.Machine
end

section
/-! PROOF of O23 to O25 (10_state.md R14, R16, R19; 20_memory.md R34): the frames, read off the states the handlers
complete in. An abort leaves everything but `run` and `out`. -/
namespace Sys2Proof.Machine

/-- Settles O23. -/
theorem registerWritersFrame : Obligations.RegisterWritersFrame := by
  intro ra b i s t hi h
  obtain hc | ⟨c, -, rfl⟩ := exec_cases h
  · obtain rfl | rfl | rfl := hi
    · cases hc with
      | ldi hr =>
        refine ⟨fun _ => rfl, rfl, .inr ⟨rfl, rfl, fun q hq _ => s.setReg_reg_other _ fun hqr => hq ?_⟩⟩
        rw [hqr, hr]
    · cases hc with
      | mul hr hq =>
        refine ⟨fun _ => rfl, rfl, .inr ⟨rfl, rfl, fun q hq _ => s.setReg_reg_other _ fun hqr => hq ?_⟩⟩
        rw [hqr, hr]
    · cases hc with
      | pop hr hsp =>
        refine ⟨fun _ => rfl, rfl, .inr ⟨rfl, rfl, fun q hq hqsp => ?_⟩⟩
        rw [State.advance_reg, State.popped_reg _ _ (hqsp rfl), if_neg (fun hqr => hq (by rw [hqr, hr]))]
  · exact ⟨fun _ => rfl, rfl, .inl ⟨c, takeAbort_eq_abortedFrom c s⟩⟩

/-- Settles O24. -/
theorem nonRegisterWritersFrame : Obligations.NonRegisterWritersFrame := by
  intro ra rb i s t hi h
  obtain hc | ⟨c, -, rfl⟩ := exec_cases h
  · obtain rfl | rfl | rfl | rfl | rfl | rfl := hi
    all_goals
      cases hc
      exact ⟨by simp, by simp, by simp, .inr ⟨by simp, by simp⟩⟩
  · exact ⟨fun _ => rfl, fun _ => rfl, fun _ => rfl, .inl ⟨c, takeAbort_eq_abortedFrom c s⟩⟩

/-- Settles O25. -/
theorem pushFrame : Obligations.PushFrame := by
  intro ra s t hwf h
  obtain hc | ⟨c, -, rfl⟩ := exec_cases h
  · cases hc with
    | @push _ r hr hsp =>
      refine ⟨?_, fun q hq => s.pushed_reg_other r hq, rfl, .inr ⟨rfl, rfl⟩⟩
      rintro a rfl b hb
      exact (State.pushed_cell hwf r b).trans (if_neg hb)
  · exact ⟨fun _ _ _ _ => rfl, fun _ _ => rfl, rfl, .inl ⟨c, takeAbort_eq_abortedFrom c s⟩⟩

end Sys2Proof.Machine
end

section
/-! SUPPORT for the rules of the whole machine: what a step can do down to the handlers (`StepOutcome`), and what a completed
instruction does to memory, to the run state with the output, and to `pc`. -/
namespace Sys2Proof.Machine

/-! ### The slot an instruction was decoded from -/

theorem opcode_of_decodeSlot {ir a b op : Byte} {i : Instr} (h : decodeSlot ir a b = some i)
    (hop : (encode i).head? = some op) : ir = op :=
  Option.some.inj ((encode_head_of_decodeSlot h).symm.trans hop)

/-- The first operand of a decoded instruction is the slot's second cell. -/
theorem operand_of_decodeSlot {ir a b x : Byte} {i : Instr} (h : decodeSlot ir a b = some i)
    (hx : (encode i)[1]? = some x) : x = a := by
  rw [encode_of_decodeSlot h] at hx
  cases hn : declaredCount ir with
  | zero => simp [hn] at hx
  | succ n => simpa [hn, eq_comm] using hx

/-- A byte is recognized exactly when its slots decode, whatever the other two cells are (30_encoding.md R47). -/
theorem recognized_eq_isSome (ir a b : Byte) : recognized ir = (decodeSlot ir a b).isSome := by
  cases h : decodeSlot ir a b with
  | none => exact congrArg Option.isSome (decodeSlot_none_congr 0 0 h)
  | some i =>
    refine Option.isSome_iff_ne_none.mpr fun h0 => ?_
    rw [decodeSlot_none_congr a b h0] at h
    cases h

theorem recognized_of_decodeSlot {ir a b : Byte} {i : Instr} (h : decodeSlot ir a b = some i) :
    recognized ir = true := by
  rw [recognized_eq_isSome ir a b, h]; rfl

theorem not_recognized_iff {ir : Byte} (a b : Byte) : recognized ir = false ↔ decodeSlot ir a b = none := by
  rw [recognized_eq_isSome ir a b, Option.isSome_eq_false_iff, Option.isNone_iff_eq_none]

/-- The register operands of a decoded instruction: none for HLT, two for MUL and CMP, one for every other (30_encoding.md
R46). -/
theorem regOperands_of_decodeSlot {ir a b : Byte} {i : Instr} (h : decodeSlot ir a b = some i) :
    (i.regOperands = [] ∧ ir = opcHlt) ∨ (i.regOperands = [a] ∧ ir ≠ opcHlt) ∨
      (i.regOperands = [a, b] ∧ ir ≠ opcHlt ∧ ir ∈ [opcMul, opcCmp]) := by
  obtain ⟨rfl, rfl⟩ | ⟨rfl, rfl⟩ | ⟨rfl, rfl⟩ | ⟨rfl, rfl⟩ | ⟨rfl, rfl⟩ | ⟨rfl, rfl⟩ | ⟨rfl, rfl⟩ | ⟨rfl, rfl⟩ |
    ⟨rfl, rfl⟩ | ⟨rfl, rfl⟩ := decodeSlot_cases h
  · exact .inr (.inl ⟨rfl, by decide⟩)
  · exact .inr (.inl ⟨rfl, by decide⟩)
  · exact .inr (.inr ⟨rfl, by decide, by decide⟩)
  · exact .inl ⟨rfl, rfl⟩
  · exact .inr (.inl ⟨rfl, by decide⟩)
  · exact .inr (.inl ⟨rfl, by decide⟩)
  · exact .inr (.inl ⟨rfl, by decide⟩)
  · exact .inr (.inr ⟨rfl, by decide, by decide⟩)
  · exact .inr (.inl ⟨rfl, by decide⟩)
  · exact .inr (.inl ⟨rfl, by decide⟩)

/-- The operand an index abort reports: the first, or the second of MUL or CMP where the first is good (60_exceptions.md
R84). -/
theorem firstBad_of_decodeSlot {ir a b k : Byte} {i : Instr} (h : decodeSlot ir a b = some i)
    (hk : i.regOperands.find? (fun b => !isRegister b) = some k) :
    8 ≤ k.toNat ∧ ((ir ≠ opcHlt ∧ k = a) ∨ (ir ∈ [opcMul, opcCmp] ∧ a.toNat < 8 ∧ k = b)) := by
  obtain ⟨hops, -⟩ | ⟨hops, hop⟩ | ⟨hops, hop, htwo⟩ := regOperands_of_decodeSlot h
  · rw [hops] at hk
    cases hk
  · rw [hops] at hk
    obtain ⟨ha, rfl⟩ := firstBad_one.mp hk
    exact ⟨ha, .inl ⟨hop, rfl⟩⟩
  · rw [hops] at hk
    obtain ⟨ha, rfl⟩ | ⟨ha, hb, rfl⟩ := firstBad_two.mp hk
    · exact ⟨ha, .inl ⟨hop, rfl⟩⟩
    · exact ⟨hb, .inr ⟨htwo, ha, rfl⟩⟩

/-! ### Steps -/

/-- Everything the step of a running machine can be (40_sequencer.md R54): the fetch aborts, the byte has no handler, the
handler completes, or it aborts. -/
inductive StepOutcome (s t : State) : Prop
  | fetchAborts (hp : 254 ≤ s.pc.toNat) (ht : t = takeAbort (.memoryBounds (max 256 s.pc.toNat)) s)
  | unrecognized (hp : s.pc.toNat ≤ 253)
      (hd : decodeSlot (s.cell s.pc.toNat) (s.cell (s.pc.toNat + 1)) (s.cell (s.pc.toNat + 2)) = none)
      (ht : t = takeUnrecognized (s.cell s.pc.toNat) s)
  | completes {i : Instr} (hp : s.pc.toNat ≤ 253)
      (hd : decodeSlot (s.cell s.pc.toNat) (s.cell (s.pc.toNat + 1)) (s.cell (s.pc.toNat + 2)) = some i)
      (hc : Completes s i t)
  | aborts {i : Instr} {c : AbortCause} (hp : s.pc.toNat ≤ 253)
      (hd : decodeSlot (s.cell s.pc.toNat) (s.cell (s.pc.toNat + 1)) (s.cell (s.pc.toNat + 2)) = some i)
      (ha : AbortsWith s i c) (ht : t = takeAbort c s)

theorem step_outcome {s t : State} (h : step s = .next t) : s.run = .running ∧ StepOutcome s t := by
  obtain ⟨hr, ⟨hp, ht⟩ | ⟨hp, i, hd, hi⟩ | ⟨hp, hd, ht⟩⟩ := step_cases h
  · exact ⟨hr, .fetchAborts hp ht⟩
  · obtain hc | ⟨c, ha, ht⟩ := exec_cases hi
    · exact ⟨hr, .completes hp hd hc⟩
    · exact ⟨hr, .aborts hp hd ha ht⟩
  · exact ⟨hr, .unrecognized hp hd ht⟩

/-! ### What a completed instruction does -/

/-- Only PUSH writes memory (20_memory.md R34). -/
theorem Completes.mem_cases {s t : State} {i : Instr} (h : Completes s i t) :
    t.mem = s.mem ∨ ∃ ra r, i = .push ra ∧ s.sp.toNat ≠ 0 ∧ t = (s.pushed r).advance 2 := by
  cases h with
  | @push ra r hr hsp => exact .inr ⟨ra, r, rfl, hsp, rfl⟩
  | _ => exact .inl (by simp)

/-- Only PRN and HLT append an event, and only HLT ends the run (10_state.md R21, R22). -/
theorem Completes.event_cases {s t : State} {i : Instr} (h : Completes s i t) :
    (t.run = s.run ∧ t.out = s.out ∧ ∀ ra, i ≠ .prn ra) ∨
    (∃ (ra : Byte) (r : RegIx), i = .prn ra ∧ ra.toNat = r.val ∧ t.run = s.run ∧ t.out = s.out ++ [.print (s.reg r)]) ∨
    (i = .hlt ∧ t = ((s.emit .haltNotice).setRun .halted).advance 1) := by
  cases h with
  | @prn ra r hr => exact .inr (.inl ⟨ra, r, rfl, hr, rfl, rfl⟩)
  | hlt => exact .inr (.inr ⟨rfl, rfl⟩)
  | _ => exact .inl (by simp)

/-- A completed instruction leaves the run state, but for HLT. -/
theorem Completes.run_cases {s t : State} {i : Instr} (h : Completes s i t) : t.run = s.run ∨ t.run = .halted := by
  obtain ⟨hrun, -⟩ | ⟨_, _, -, -, hrun, -⟩ | ⟨-, rfl⟩ := h.event_cases
  · exact .inl hrun
  · exact .inl hrun
  · exact .inr rfl

/-- A machine whose instruction completed is running or halted. -/
theorem Completes.run_of_running {s t : State} {i : Instr} (h : Completes s i t) (hr : s.run = .running) :
    t.run = .running ∨ t.run = .halted := hr ▸ h.run_cases

/-- `pc` goes up by one and the operand count, or to the register a jump names (10_state.md R16). -/
theorem Completes.pc_cases {s t : State} {i : Instr} (h : Completes s i t) (hp : s.pc.toNat ≤ 253) :
    ((∀ ra, i ≠ .jmp ra) ∧ t.pc.toNat = s.pc.toNat + 1 + i.operandCount) ∨
    ∃ (ra : Byte) (r : RegIx), (i = .jmp ra ∨ i = .jeq ra ∨ i = .jne ra) ∧ ra.toNat = r.val ∧
      t.pc.toNat = (s.reg r).toNat := by
  have hadd : ∀ k : PcWord, k.toNat ≤ 3 → (s.pc + k).toNat = s.pc.toNat + k.toNat := fun k => pc_add_toNat hp
  cases h with
  | @jmp ra r hr => exact .inr ⟨ra, r, .inl rfl, hr, zext9_toNat _⟩
  | @jeq ra r hr =>
    cases he : s.flags.e
    · exact .inl ⟨by simp, hadd 2 (by decide)⟩
    · exact .inr ⟨ra, r, .inr (.inl rfl), hr, zext9_toNat _⟩
  | @jne ra r hr =>
    cases he : s.flags.e
    · exact .inr ⟨ra, r, .inr (.inr rfl), hr, zext9_toNat _⟩
    · exact .inl ⟨by simp, hadd 2 (by decide)⟩
  | hlt => exact .inl ⟨by simp, hadd 1 (by decide)⟩
  | ldi | mul | cmp => exact .inl ⟨by simp, hadd 3 (by decide)⟩
  | prn | push | pop => exact .inl ⟨by simp, hadd 2 (by decide)⟩

end Sys2Proof.Machine
end

section
/-! PROOF of O27 to O32 and O44: the rules of the whole machine (10_state.md, 20_memory.md R34, 60_exceptions.md), one case
for each thing a step can do. -/
namespace Sys2Proof.Machine

/-- Settles O27. -/
theorem onlyPushChangesMemory : Obligations.OnlyPushChangesMemory := by
  intro s t a hwf h hne
  obtain ⟨hr, ho⟩ := step_outcome h
  cases ho with
  | fetchAborts hp ht => exact absurd (by rw [ht, takeAbort_cell]) hne
  | unrecognized hp hd ht => exact absurd (by rw [ht, takeUnrecognized_cell]) hne
  | aborts hp hd ha ht => exact absurd (by rw [ht, takeAbort_cell]) hne
  | completes hp hd hc =>
    obtain hmem | ⟨ra, r, rfl, hsp, rfl⟩ := hc.mem_cases
    · exact absurd (congrArg (memGet · a) hmem) hne
    · have ha : a = s.sp.toNat - 1 := by
        by_contra hn
        exact hne ((State.pushed_cell hwf r a).trans (if_neg hn))
      refine ⟨opcode_of_decodeSlot hd rfl, by omega, ?_, hr⟩
      rw [State.advance_sp, State.pushed_sp_toNat, ha]

/-- Settles O28. -/
theorem runStateAndOutputMoveTogether : Obligations.RunStateAndOutputMoveTogether := by
  intro s t h
  obtain ⟨hr, ho⟩ := step_outcome h
  cases ho with
  | fetchAborts hp ht => subst ht; exact .inr (.inr (.inr (.inr ⟨_, rfl, rfl⟩)))
  | unrecognized hp hd ht => subst ht; exact .inr (.inr (.inr (.inl ⟨rfl, rfl⟩)))
  | aborts hp hd ha ht => subst ht; exact .inr (.inr (.inr (.inr ⟨_, rfl, rfl⟩)))
  | completes hp hd hc =>
    obtain ⟨hrun, hout, hprn⟩ | ⟨ra, r, rfl, hra, hrun, hout⟩ | ⟨rfl, rfl⟩ := hc.event_cases
    · refine .inl ⟨hrun.trans hr, hout, fun hop => ?_⟩
      rw [hop, decodeSlot_prn] at hd
      exact hprn _ (Option.some.inj hd).symm
    · have hcell := operand_of_decodeSlot hd (x := ra) rfl
      exact .inr (.inl ⟨r, hcell ▸ hra, opcode_of_decodeSlot hd rfl, hrun.trans hr, hout⟩)
    · exact .inr (.inr (.inl ⟨opcode_of_decodeSlot hd rfl, rfl, rfl⟩))

/-- Settles O29. -/
theorem pcMovesAsTabled : Obligations.PcMovesAsTabled := by
  intro s t h
  obtain ⟨hr, ho⟩ := step_outcome h
  cases ho with
  | fetchAborts hp ht => subst ht; simp
  | unrecognized hp hd ht => subst ht; simp
  | aborts hp hd ha ht => subst ht; simp
  | @completes i hp hd hc =>
    refine ⟨fun _ => ⟨hp, ?_⟩, fun hop _ => ?_, fun hn => absurd (hc.run_of_running hr) hn⟩
    · rw [toNat_shiftRight_six, ← operandCount_of_decodeSlot hd]
      obtain ⟨-, hpc⟩ | ⟨ra, r, hi, hra, hpc⟩ := hc.pc_cases hp
      · exact .inl hpc
      · obtain rfl | rfl | rfl := hi
        all_goals
          have hop := opcode_of_decodeSlot hd rfl
          have hcell := operand_of_decodeSlot hd (x := ra) rfl
          exact .inr ⟨by simp [hop], r, hcell ▸ hra, hpc⟩
    · rw [hop, decodeSlot_jmp] at hd
      obtain rfl := Option.some.inj hd
      obtain ⟨hne, -⟩ | ⟨ra, r, hi, hra, hpc⟩ := hc.pc_cases hp
      · exact absurd rfl (hne _)
      · obtain rfl : s.cell (s.pc.toNat + 1) = ra := by simpa using hi
        exact ⟨r, hra, hpc⟩

/-- Settles O30: what is neither running nor halted did not complete. -/
theorem faultsAndAbortsArePrecise : Obligations.FaultsAndAbortsArePrecise := by
  intro s t h
  obtain ⟨hr, ho⟩ := step_outcome h
  cases ho with
  | fetchAborts hp ht => subst ht; exact ⟨fun _ hrun => (nomatch hrun), fun _ hrun => by cases hrun; rfl⟩
  | unrecognized hp hd ht => subst ht; exact ⟨fun _ hrun => by cases hrun; rfl, fun _ hrun => (nomatch hrun)⟩
  | aborts hp hd ha ht => subst ht; exact ⟨fun _ hrun => (nomatch hrun), fun _ hrun => by cases hrun; rfl⟩
  | completes hp hd hc => obtain hrun | hrun := hc.run_of_running hr <;> simp [hrun]

/-- Settles O31: a fetch abort is the first cause of all, and a handler's are those of `AbortsWith`. -/
theorem abortReportsTheFirstCause : Obligations.AbortReportsTheFirstCause := by
  intro s t c h hrun
  obtain ⟨hr, ho⟩ := step_outcome h
  cases ho with
  | fetchAborts hp ht =>
    obtain rfl : _ = c := RunState.aborted.inj ((congrArg State.run ht).symm.trans hrun)
    exact ⟨hp, rfl⟩
  | unrecognized hp hd ht => simp [ht] at hrun
  | completes hp hd hc => obtain hrun' | hrun' := hc.run_of_running hr <;> simp [hrun'] at hrun
  | @aborts i c' hp hd ha ht =>
    obtain rfl : c' = c := RunState.aborted.inj ((congrArg State.run ht).symm.trans hrun)
    cases ha with
    | index hk =>
      obtain ⟨hbad, hwhich⟩ := firstBad_of_decodeSlot hd hk
      exact ⟨hp, recognized_of_decodeSlot hd, hbad, hwhich⟩
    | @push ra r hra hsp =>
      have hcell := operand_of_decodeSlot hd (x := ra) rfl
      exact ⟨hp, opcode_of_decodeSlot hd rfl, by rw [← hcell, hra]; exact r.isLt, hsp⟩
    | @pop ra r hra hsp =>
      have hcell := operand_of_decodeSlot hd (x := ra) rfl
      refine ⟨hp, opcode_of_decodeSlot hd rfl, by rw [← hcell, hra]; exact r.isLt, ?_⟩
      rw [State.loadedSp_eq] at hsp
      simp only [← hcell, hra, ← Fin.ext_iff, eq_comm (a := r)]
      split at hsp
      · next he => rwa [if_pos he]
      · next he => rwa [if_neg he]

/-- Settles O32. -/
theorem indexAbortIsIllFormedness : Obligations.IndexAbortIsIllFormedness := by
  intro i s
  refine ⟨fun k hk => exec_bad_index hk s, fun k hw hr he => ?_⟩
  obtain ⟨t, hc⟩ | ⟨dir, ha⟩ := completes_or_stackBounds hw s
  · obtain rfl := next_unique (exec_of_completes hc) he
    obtain hrun | hrun := hc.run_of_running hr <;> cases hrun
  · have hrun := congrArg State.run (next_unique (exec_of_aborts ha) he)
    cases hrun

/-- A step leaves the flags or sets exactly one (10_state.md R18, R19). -/
theorem flags_after_step {s t : State} (h : step s = .next t) : t.flags = s.flags ∨ t.flags.exactlyOne = true := by
  obtain ⟨-, -, hone, -⟩ | ⟨-, hsame⟩ := step_setFlags (f := s.flags) h (.inl rfl)
  · exact .inr hone
  · rw [State.setFlags_self, h, Host.Outcome.next.injEq] at hsame
    have hflags := congrArg State.flags hsame
    exact .inl hflags

/-- Settles O44. -/
theorem oneFlagStaysSet : Obligations.OneFlagStaysSet := by
  intro s t hone h
  obtain hsame | hone' := flags_after_step h
  · rw [hsame, hone]
  · exact hone'

end Sys2Proof.Machine
end

section
/-! PROOF of O5 and O38, O39 (70_reset_and_hazards.md R93 to R95): reset and loading. The idea: a loaded memory reads at
each address as the image does, and as 0 past its end. -/
namespace Sys2Proof.Machine

/-- Settles O5. -/
theorem resetStateIsTheTable : Obligations.ResetStateIsTheTable :=
  ⟨rfl, fun _ => rfl, rfl, rfl, by decide, rfl, rfl⟩

/-- The reset state with an image loaded: its cells are the image and then 0, the rest is as reset left it. -/
theorem loadImage_reset {image : List Byte} {s : State} (h : loadImage image State.reset = .ok s) :
    (∀ a, s.cell a = image.getD a 0) ∧ s = { State.reset with mem := s.mem } := by
  obtain ⟨hl, rfl⟩ := loadImage_cases h
  refine ⟨fun a => ?_, rfl⟩
  have hget := Memory.get_memSetAll (a := 0) (bs := image) Memory.wf_nil (by omega) a
  by_cases ha : a < image.length
  · exact hget.trans (if_pos (by omega))
  · rw [List.getD_eq_default _ _ (by omega)]
    exact hget.trans (if_neg (by omega))

/-- The first step of the empty image fetches 0x00, which has no handler. -/
theorem step_reset : step State.reset = .next (faultedFrom State.reset 0x00) :=
  step_unrecognized (s := State.reset) rfl (by decide) rfl

/-- Settles O38. -/
theorem loadPlacesTheImage : Obligations.LoadPlacesTheImage := by
  refine ⟨fun image hl => ?_, State.reset, rfl, step_reset⟩
  have hload := loadImage_fits hl State.reset
  obtain ⟨hcell, hrest⟩ := loadImage_reset hload
  refine ⟨_, hload, fun k b hk => ?_, fun a ha => ?_, hrest⟩
  · rw [hcell, List.getD_eq_getElem?_getD, hk, Option.getD_some]
  · rw [hcell, List.getD_eq_default _ _ ha]

/-- Settles O39: at the offset of an instruction the memory reads as its encoding and what follows it. -/
theorem loadedProgramRunsItsInstructions : Obligations.LoadedProgramRunsItsInstructions := by
  intro before next i loaded s hload hmem hr hpc hp
  obtain ⟨ir, operands, he, -, hd⟩ := decodeSlot_encode i (next.flatMap encode)
  have hcell : ∀ k, s.cell (s.pc.toNat + k) = (ir :: (operands ++ next.flatMap encode)).getD k 0 := by
    intro k
    have hload := (loadImage_reset hload).1 (s.pc.toNat + k)
    rw [List.flatMap_append, List.flatMap_cons, hpc, List.getD_append_right _ _ _ _ (Nat.le_add_right _ _),
      Nat.add_sub_cancel_left, he, List.cons_append] at hload
    rw [State.cell, hmem, hpc]
    exact hload
  refine step_decoded hr hp ?_
  rw [hcell 1, hcell 2, show s.cell s.pc.toNat = ir from hcell 0]
  exact hd

end Sys2Proof.Machine
end

section
/-! PROOF of O42, O43 and O45 (70_reset_and_hazards.md R100): the invariant. The idea: a step that completes leaves the
machine running with only prints behind it, or halted just past the HLT; any other step changes only `run` and `out`, so
that the state before it, still there, shows the cause. -/
namespace Sys2Proof.Machine

/-! ### What `endShown` says in each run state -/

theorem endShown_running {s : State} (h : s.run = .running) : endShown s ↔ s.out.all Event.isPrint = true := by
  simp only [endShown, h]

theorem endShown_halted {s : State} (h : s.run = .halted) :
    endShown s ↔ printsThen .haltNotice s.out = true ∧ 1 ≤ s.pc.toNat ∧ s.pc.toNat ≤ 254 ∧
      s.cell (s.pc.toNat - 1) = opcHlt := by
  simp only [endShown, h]

theorem endShown_faulted {s : State} {op : Byte} (h : s.run = .faulted op) :
    endShown s ↔ printsThen (.diag op) s.out = true ∧ s.pc.toNat ≤ 253 ∧ s.cell s.pc.toNat = op ∧
      recognized op = false := by
  simp only [endShown, h]

theorem endShown_aborted {s : State} {c : AbortCause} (h : s.run = .aborted c) :
    endShown s ↔ printsThen (.abortDiag c) s.out = true ∧ abortShown s c := by
  simp only [endShown, h]

theorem printsThen_append {out : List Event} (h : out.all Event.isPrint = true) (ev : Event) :
    printsThen ev (out ++ [ev]) = true := by
  rw [printsThen, List.dropLast_concat, h]
  simp

theorem getLast?_of_printsThen {out : List Event} {ev : Event} (h : printsThen ev out = true) :
    out.getLast? = some ev := by
  simp only [printsThen, Bool.and_eq_true, decide_eq_true_eq] at h
  exact h.1

/-! ### The parts of the invariant, step by step -/

/-- A step keeps the canonical form of memory. -/
theorem step_keeps_memory {s t : State} (hwf : Memory.wf s.mem = true) (h : step s = .next t) :
    Memory.wf t.mem = true := by
  obtain ⟨-, ho⟩ := step_outcome h
  cases ho with
  | fetchAborts hp ht => rwa [ht, takeAbort_mem]
  | unrecognized hp hd ht => rwa [ht, takeUnrecognized_mem]
  | aborts hp hd ha ht => rwa [ht, takeAbort_mem]
  | completes hp hd hc =>
    obtain hmem | ⟨ra, r, -, -, rfl⟩ := hc.mem_cases
    · rwa [hmem]
    · exact State.pushed_wf hwf r

/-- A step keeps `pc` at most 256 (10_state.md R15): it advances by at most 3 from at most 253, or holds a byte. -/
theorem step_keeps_pc_bound {s t : State} (hpc : s.pc.toNat ≤ 256) (h : step s = .next t) : t.pc.toNat ≤ 256 := by
  obtain ⟨-, ho⟩ := step_outcome h
  cases ho with
  | fetchAborts hp ht => rwa [ht, takeAbort_pc]
  | unrecognized hp hd ht => rwa [ht, takeUnrecognized_pc]
  | aborts hp hd ha ht => rwa [ht, takeAbort_pc]
  | @completes i hp hd hc =>
    have hcount := i.operandCount_le_two
    obtain ⟨-, hto⟩ | ⟨_, r, -, -, hto⟩ := hc.pc_cases hp
    · omega
    · have := (s.reg r).isLt
      omega

/-- A step that aborts from a `pc` of at most 256 shows its cause. -/
theorem abortShown_after_step {s t : State} {c : AbortCause} (hpc : s.pc.toNat ≤ 256) (h : step s = .next t)
    (hrun : t.run = .aborted c) : abortShown t c := by
  have hfirst := abortReportsTheFirstCause s t c h hrun
  obtain rfl := (faultsAndAbortsArePrecise s t h).2 c hrun
  cases c with
  | memoryBounds a =>
    obtain ⟨hp, rfl⟩ := hfirst
    exact ⟨Nat.max_eq_left hpc, hp⟩
  | registerIndex i =>
    obtain ⟨hp, hrec, hbad, ⟨-, hi⟩ | ⟨-, -, hi⟩⟩ := hfirst
    · exact ⟨hp, hrec, hbad, .inl hi.symm⟩
    · exact ⟨hp, hrec, hbad, .inr hi.symm⟩
  | stackBounds dir =>
    cases dir with
    | push =>
      obtain ⟨hp, hop, -, hsp⟩ := hfirst
      exact ⟨hp, hop, BitVec.eq_of_toNat_eq hsp⟩
    | pop =>
      obtain ⟨hp, hop, -, hsp⟩ := hfirst
      refine ⟨hp, hop, ?_⟩
      split at hsp
      · exact .inr (BitVec.eq_of_toNat_eq hsp)
      · exact .inl (BitVec.eq_of_toNat_eq hsp)
  | aluUnsupported op => exact hfirst

/-- A step from a state that shows how it stands leads to one that does. -/
theorem step_keeps_endShown {s t : State} (hpc : s.pc.toNat ≤ 256) (he : endShown s) (h : step s = .next t) :
    endShown t := by
  obtain ⟨hr, ho⟩ := step_outcome h
  have hprints := (endShown_running hr).mp he
  cases ho with
  | fetchAborts hp ht =>
    subst ht
    exact (endShown_aborted rfl).mpr ⟨printsThen_append hprints _, abortShown_after_step hpc h rfl⟩
  | unrecognized hp hd ht =>
    subst ht
    exact (endShown_faulted rfl).mpr ⟨printsThen_append hprints _, hp, rfl, (not_recognized_iff _ _).mpr hd⟩
  | aborts hp hd ha ht =>
    subst ht
    exact (endShown_aborted rfl).mpr ⟨printsThen_append hprints _, abortShown_after_step hpc h rfl⟩
  | completes hp hd hc =>
    obtain ⟨hrun, hout, -⟩ | ⟨_, _, -, -, hrun, hout⟩ | ⟨rfl, rfl⟩ := hc.event_cases
    · exact (endShown_running (hrun.trans hr)).mpr (hout ▸ hprints)
    · refine (endShown_running (hrun.trans hr)).mpr ?_
      rw [hout, List.all_append, hprints]
      rfl
    · have hadd : (s.pc + 1).toNat = s.pc.toNat + 1 := pc_add_toNat hp (by decide)
      refine (endShown_halted rfl).mpr ⟨printsThen_append hprints _, ?_, ?_, ?_⟩
      · exact hadd ▸ Nat.le_add_left 1 _
      · exact hadd ▸ Nat.succ_le_succ hp
      · rw [State.advance_pc, State.setRun_pc, State.emit_pc, hadd, Nat.add_sub_cancel]
        exact opcode_of_decodeSlot hd rfl

/-- Settles O43: each part of the invariant is kept on its own, the end of the run with the bound on `pc`. -/
theorem everyStepKeepsTheInvariant : Obligations.EveryStepKeepsTheInvariant := by
  rintro s t ⟨hmem, hpc, hflags, hend⟩ h
  refine ⟨step_keeps_memory hmem h, step_keeps_pc_bound hpc h, ?_, step_keeps_endShown hpc hend h⟩
  obtain hsame | hone := flags_after_step h
  · rwa [hsame]
  · exact Flags.legal_of_exactlyOne hone

/-- Settles O42: loading changes memory alone, and keeps its canonical form. -/
theorem loadedStateMeetsTheInvariant : Obligations.LoadedStateMeetsTheInvariant := by
  have hloaded : ∀ (image : List Byte) (s : State), loadImage image State.reset = .ok s → s.Inv := by
    intro image s h
    obtain ⟨hl, rfl⟩ := loadImage_cases h
    exact ⟨Memory.wf_memSetAll Memory.wf_nil (by omega), Nat.zero_le 256, rfl, (endShown_running rfl).mpr rfl⟩
  exact ⟨hloaded [] State.reset rfl, hloaded⟩

/-- Every state of every run of an image meets the invariant. -/
theorem Reachable.inv {image : List Byte} {s : State} (h : Reachable image s) : s.Inv := by
  induction h with
  | loaded s hload => exact loadedStateMeetsTheInvariant.2 image s hload
  | stepped s t _ hstep ih => exact everyStepKeepsTheInvariant s t ih hstep

/-- Settles O45: read off the invariant. -/
theorem endOfARunShowsItsCause : Obligations.EndOfARunShowsItsCause := by
  intro image s h
  obtain ⟨-, hpc, hflags, hend⟩ := h.inv
  refine ⟨hpc, hflags, fun hr => ?_, fun op hr => ?_, fun c hr => ?_, fun a hr => ?_, fun op hr => ?_⟩
  · obtain ⟨hout, hone, -, hcell⟩ := (endShown_halted hr).mp hend
    exact ⟨getLast?_of_printsThen hout, hone, hcell⟩
  · obtain ⟨hout, -, hcell, hrec⟩ := (endShown_faulted hr).mp hend
    exact ⟨getLast?_of_printsThen hout, hcell, hrec⟩
  · exact getLast?_of_printsThen ((endShown_aborted hr).mp hend).1
  · exact ((endShown_aborted hr).mp hend).2
  · exact ((endShown_aborted hr).mp hend).2

end Sys2Proof.Machine
end

section
/-! PROOF of O40, O41 and O46 (70_reset_and_hazards.md R95 to R97): the image text. The idea: what the loader's stripping
and trimming leave of a line is its remainder, and the bits of a numeral's value are its digits from the right; a text's
image is one byte for each line that yields one, in line order. -/
namespace Sys2Proof.Machine

/-! ### One line -/

/-- What is trimmed away from a line is white space around what is kept. -/
theorem trim_split (cs : List Char) :
    cs = cs.takeWhile Char.isWhitespace ++ trim cs ++ (cs.dropWhile Char.isWhitespace).rtakeWhile Char.isWhitespace := by
  have hright : trim cs ++ (cs.dropWhile Char.isWhitespace).rtakeWhile Char.isWhitespace =
      cs.dropWhile Char.isWhitespace :=
    List.rdropWhile_append_rtakeWhile
  rw [List.append_assoc, hright, List.takeWhile_append_dropWhile]

/-- The first element that `dropWhile` leaves is none it drops. -/
theorem not_of_head?_dropWhile {p : Char → Bool} {cs : List Char} {c : Char} (h : (cs.dropWhile p).head? = some c) :
    p c = false := by
  have hnot := List.head?_dropWhile_not p cs
  rwa [h] at hnot

/-- What is kept neither begins nor ends with white space. -/
theorem trim_ends {cs : List Char} {c : Char} (h : (trim cs).head? = some c ∨ (trim cs).getLast? = some c) :
    c.isWhitespace = false := by
  obtain h | h := h
  · obtain ⟨after, hafter⟩ : trim cs <+: cs.dropWhile Char.isWhitespace := List.rdropWhile_prefix _ _
    refine not_of_head?_dropWhile (cs := cs) ?_
    rw [← hafter, List.head?_append, h, Option.some_or]
  · rw [trim, List.getLast?_reverse] at h
    exact not_of_head?_dropWhile h

/-- Every line has a remainder, the one the loader finds. -/
theorem lineRemainder_trim (line : List Char) : LineRemainder line (trim (stripComment line)) := by
  have hsplit := trim_split (stripComment line)
  have hline : stripComment line ++ line.dropWhile (· != '#') = line := List.takeWhile_append_dropWhile
  refine ⟨(stripComment line).takeWhile Char.isWhitespace,
    ((stripComment line).dropWhile Char.isWhitespace).rtakeWhile Char.isWhitespace, line.dropWhile (· != '#'), ?_,
    fun c hc => List.mem_takeWhile_imp hc, fun c hc => List.mem_rtakeWhile_imp hc, ?_, fun hsharp => ?_,
    fun c hc => trim_ends hc⟩
  · rw [← hsplit, hline]
  · cases hd : (line.dropWhile (· != '#')).head? with
    | none => exact .inl (List.head?_eq_none_iff.mp hd)
    | some c => exact .inr (by simpa using not_of_head?_dropWhile hd)
  · have hmem : '#' ∈ stripComment line := by
      rw [hsplit]
      exact List.mem_append_left _ (List.mem_append_right _ hsharp)
    simpa using List.mem_takeWhile_imp hmem

theorem isBinaryDigit_iff (c : Char) : isBinaryDigit c = true ↔ c = '0' ∨ c = '1' := by
  simp [isBinaryDigit]

/-- The value of a numeral with one more digit at its right end. -/
theorem numeralValue_concat (cs : List Char) (c : Char) :
    numeralValue (cs ++ [c]) = 2 * numeralValue cs + (if c == '1' then 1 else 0) := by
  simp only [numeralValue, List.foldl_append, List.foldl_cons, List.foldl_nil]

/-- Bit `k` of a numeral's value is its digit `k` from the right (70_reset_and_hazards.md R96). -/
theorem numeralValue_testBit (cs : List Char) (k : Nat) :
    (numeralValue cs).testBit k = true ↔ cs.reverse[k]? = some '1' := by
  induction cs using List.reverseRecOn generalizing k with
  | nil => simp [numeralValue]
  | append_singleton cs c ih =>
    rw [numeralValue_concat, List.reverse_append, List.reverse_singleton, List.singleton_append]
    cases k with
    | zero =>
      by_cases hc : c = '1' <;> simp [hc, Nat.testBit_zero]
    | succ k =>
      have hhalf : (2 * numeralValue cs + (if c == '1' then 1 else 0)) / 2 = numeralValue cs := by split <;> omega
      rw [Nat.testBit_succ, hhalf, List.getElem?_cons_succ, ih]

/-- A remainder that is a numeral is a byte or refused, by its length. -/
theorem parseLine_of_numeral {line r : List Char} (h : LineRemainder line r) (hn : IsNumeral r) :
    parseLine line = if r.length ≤ 8 then .byte (trunc8 (numeralValue r)) else .refused := by
  obtain ⟨hne, hdigits⟩ := hn
  have hall : r.all isBinaryDigit = true := List.all_eq_true.mpr fun c hc => (isBinaryDigit_iff c).mpr (hdigits c hc)
  rw [parseLine_eq, h.trim_eq, hall, List.isEmpty_eq_false_iff.mpr hne]
  rfl

/-- A remainder that is none is skipped. -/
theorem parseLine_of_not_numeral {line r : List Char} (h : LineRemainder line r)
    (hn : r = [] ∨ ∃ c ∈ r, c ≠ '0' ∧ c ≠ '1') : parseLine line = .skipped := by
  rw [parseLine_eq, h.trim_eq, if_pos]
  obtain rfl | ⟨c, hc, h0, h1⟩ := hn
  · rfl
  · have hbad : r.all isBinaryDigit = false := by
      rw [List.all_eq_false]
      exact ⟨c, hc, by simp [isBinaryDigit, h0, h1]⟩
    rw [hbad, Bool.not_false, Bool.or_true]

/-- Settles O41: the digits past the eighth bit are none, so the byte keeps them all. -/
theorem imageLineYieldsItsByte : Obligations.ImageLineYieldsItsByte := by
  refine ⟨fun line => ⟨_, lineRemainder_trim line⟩, fun line r h =>
    ⟨fun hn hl => ⟨trunc8 (numeralValue r), ?_, fun k => ?_⟩, fun hn hl => ?_, parseLine_of_not_numeral h⟩⟩
  · rw [parseLine_of_numeral h hn, if_pos hl]
  · rw [trunc8, BitVec.getLsbD_ofNat, Bool.and_eq_true, decide_eq_true_eq, numeralValue_testBit, and_iff_right_iff_imp]
    intro hk
    obtain ⟨hlt, -⟩ := List.getElem?_eq_some_iff.mp hk
    rw [List.length_reverse] at hlt
    omega
  · rw [parseLine_of_numeral h hn, if_neg (by omega)]

/-! ### A text -/

/-- A text with a refused line is refused, whatever its other lines are (70_reset_and_hazards.md R97). -/
theorem parseLines_of_refused {lines : List (List Char)} {line : List Char} (hm : line ∈ lines)
    (h : parseLine line = .refused) : parseLines lines = .error .numeralTooLong := by
  obtain ⟨_, -, -, hok⟩ | ⟨herr, -⟩ := parseLines_cases lines
  · exact absurd h (hok line hm)
  · exact herr

/-- A text without a refused line is an image of as many bytes as lines that yield one. -/
theorem parseLines_of_accepted {lines : List (List Char)} (h : ∀ line ∈ lines, parseLine line ≠ .refused) :
    ∃ image, parseLines lines = .ok image ∧ image.length = lines.countP yieldsByte := by
  obtain ⟨image, hp, hlen, -⟩ | ⟨-, line, hm, hr⟩ := parseLines_cases lines
  · exact ⟨image, hp, hlen⟩
  · exact absurd hr (h line hm)

/-- A skipped line might as well not be there. -/
theorem parseLines_skip (before : List (List Char)) {line : List Char} (h : parseLine line = .skipped)
    (after : List (List Char)) : parseLines (before ++ line :: after) = parseLines (before ++ after) := by
  obtain ⟨image, hp, -, -⟩ | ⟨-, bad, hm, hr⟩ := parseLines_cases before
  · rw [parseLines_append hp, parseLines_append hp, parseLines_cons_skipped h]
  · rw [parseLines_of_refused (List.mem_append_left _ hm) hr, parseLines_of_refused (List.mem_append_left _ hm) hr]

/-- Settles O40. -/
theorem oversizeImageRefused : Obligations.OversizeImageRefused := by
  refine ⟨fun image s hl => loadImage_too_long hl s, fun before after line numeral s hrem hn hl => ?_,
    fun lines s hok hl => ?_⟩
  · have hrefused : parseLine line = .refused := by rw [parseLine_of_numeral hrem hn, if_neg (by omega)]
    rw [loadText_eq, parseLines_of_refused (List.mem_append_right _ List.mem_cons_self) hrefused]
  · obtain ⟨image, hp, hlen⟩ := parseLines_of_accepted hok
    rw [loadText_eq, hp, ← hlen]
    exact loadImage_too_long (hlen ▸ hl) s

/-- In the image of a text, the byte a line yields stands after those of the lines before it. -/
theorem parseLines_getD {before after : List (List Char)} {line : List Char} {b : Byte} {image : List Byte}
    (hp : parseLines (before ++ line :: after) = .ok image) (hb : parseLine line = .byte b) :
    image.getD (before.countP yieldsByte) 0 = b := by
  obtain ⟨first, hfirst, hlen, -⟩ | ⟨-, bad, hm, hr⟩ := parseLines_cases before
  · rw [parseLines_append hfirst, parseLines_cons_byte hb] at hp
    cases hafter : parseLines after with
    | error e => rw [hafter] at hp; cases hp
    | ok last =>
      rw [hafter] at hp
      obtain rfl : first ++ b :: last = image := Except.ok.inj hp
      rw [← hlen, List.getD_append_right _ _ _ _ (Nat.le_refl _), Nat.sub_self, List.getD_cons_zero]
  · rw [parseLines_of_refused (List.mem_append_left _ hm) hr] at hp
    cases hp

/-- Settles O46. -/
theorem textLoadsItsLinesInOrder : Obligations.TextLoadsItsLinesInOrder := by
  refine ⟨fun lines hok hl => ?_, fun before after line s hskip => ?_⟩
  · obtain ⟨image, hp, hlen⟩ := parseLines_of_accepted hok
    have hload := loadImage_fits (hlen ▸ hl) State.reset
    obtain ⟨hcell, hrest⟩ := loadImage_reset hload
    refine ⟨_, by rw [loadText_eq, hp]; exact hload, hrest, fun before after line b hlines hb => ?_, fun a ha => ?_⟩
    · rw [hcell]
      exact parseLines_getD (hlines ▸ hp) hb
    · rw [hcell, List.getD_eq_default _ _ (hlen ▸ ha)]
  · rw [loadText_eq, loadText_eq, parseLines_skip before hskip after]

end Sys2Proof.Machine
end

section
/-! PROOF of O33, O36 and O37 (41_load_print.md R60, 20_memory.md R39, 45_compare_branch.md R74): two steps in a row. The
first completes in the state its handler says, and that state's `pc` and cells decide the second. -/
namespace Sys2Proof.Machine

/-- The step of a running machine whose instruction completes. -/
theorem step_of_completes {s t : State} {i : Instr} (hr : s.run = .running) (hp : s.pc.toNat ≤ 253)
    (hd : decodeSlot (s.cell s.pc.toNat) (s.cell (s.pc.toNat + 1)) (s.cell (s.pc.toNat + 2)) = some i)
    (hc : Completes s i t) : step s = .next t :=
  (step_decoded hr hp hd).trans (exec_of_completes hc)

/-- Settles O33. -/
theorem ldiThenPrnEmitsTheImmediate : Obligations.LdiThenPrnEmitsTheImmediate := by
  intro s k v hk hr hp hldi hk1 hv hprn hk4
  let r : RegIx := ⟨k.toNat, hk⟩
  let t := (s.setReg r v).advance 3
  have htp : t.pc.toNat = s.pc.toNat + 3 := pc_add_toNat (p := s.pc) (by omega) (by decide)
  have hstep : step s = .next t := by
    refine step_of_completes hr (by omega) ?_ (.ldi (r := r) rfl v)
    rw [hldi, hk1, hv, decodeSlot_ldi]
  have hnext : step t = .next ((t.emit (.print (t.reg r))).advance 2) := by
    refine step_of_completes hr (by omega) ?_ (.prn (r := r) rfl)
    rw [htp]
    simp only [t, State.advance_cell, State.setReg_cell, hprn, Nat.add_assoc, Nat.reduceAdd, hk4, decodeSlot_prn]
  refine ⟨t, _, hstep, hnext, ?_, hr, ?_⟩
  · have hreg : t.reg r = v := s.setReg_reg_same r v
    rw [hreg]; rfl
  · rw [State.advance_pc, State.emit_pc, pc_add_toNat (by omega) (by decide), htp]
    rfl

/-- Settles O36: PUSH at `pc` stores at `pc + 2`, where it goes on. -/
theorem pushedByteIsTheNextOpcode : Obligations.PushedByteIsTheNextOpcode := by
  intro s h hwf hr hp hpush hne hsp
  let r : RegIx := ⟨_, h⟩
  have hrsp : r ≠ spIndex := fun he => hne (congrArg Fin.val he)
  let t := (s.pushed r).advance 2
  have htp : t.pc.toNat = s.pc.toNat + 2 := pc_add_toNat (p := s.pc) (by omega) (by decide)
  have hcell : ∀ a, t.cell a = if a = s.sp.toNat - 1 then (s.pushed r).reg r else s.cell a := State.pushed_cell hwf r
  have h0 : t.cell t.pc.toNat = s.reg r := by
    rw [hcell, if_pos (by omega), State.pushed_reg_other _ _ hrsp]
  have h1 : t.cell (t.pc.toNat + 1) = s.cell (s.pc.toNat + 3) := by rw [hcell, if_neg (by omega), htp]
  have h2 : t.cell (t.pc.toNat + 2) = s.cell (s.pc.toNat + 4) := by rw [hcell, if_neg (by omega), htp]
  refine ⟨t, ?_, htp, fun i hd => ?_, fun hrec => ?_⟩
  · refine step_of_completes hr (by omega) ?_ (.push (r := r) rfl (by omega))
    rw [hpush, decodeSlot_push]
  · exact step_decoded hr (by omega) (by rw [h0, h1, h2]; exact hd)
  · have hnone : decodeSlot (t.cell t.pc.toNat) (t.cell (t.pc.toNat + 1)) (t.cell (t.pc.toNat + 2)) = none := by
      rw [h0]
      exact (not_recognized_iff _ _).mp hrec
    rw [step_unrecognized (s := t) hr (by omega) hnone, h0, takeUnrecognized_eq_faultedFrom]

/-- Settles O37: the jump, taken, completes; its target leaves no room for three cells. -/
theorem jumpPastTheLastSlotAbortsNext : Obligations.JumpPastTheLastSlotAbortsNext := by
  intro s h hr hp hreg hjump
  let r : RegIx := ⟨_, h⟩
  let t := s.jumpTo (s.reg r)
  have hstep : step s = .next t := by
    obtain hop | ⟨hop, he⟩ | ⟨hop, he⟩ := hjump
    · exact step_of_completes hr hp (by rw [hop, decodeSlot_jmp]) (.jmp (r := r) rfl)
    · have hc : Completes s (.jeq (s.cell (s.pc.toNat + 1))) (s.branch s.flags.e (s.reg r)) := .jeq rfl
      rw [he] at hc
      exact step_of_completes hr hp (by rw [hop, decodeSlot_jeq]) hc
    · have hc : Completes s (.jne (s.cell (s.pc.toNat + 1))) (s.branch (!s.flags.e) (s.reg r)) := .jne rfl
      rw [he] at hc
      exact step_of_completes hr hp (by rw [hop, decodeSlot_jne]) hc
  have hreg : 254 ≤ (s.reg r).toNat := hreg
  have htp : t.pc.toNat = (s.reg r).toNat := zext9_toNat _
  have hmax : max 256 t.pc.toNat = 256 := by
    have := (s.reg r).isLt
    omega
  refine ⟨t, hstep, hr, htp, ?_⟩
  rw [step_fetch_past_end (s := t) hr (by omega), hmax, takeAbort_eq_abortedFrom]

end Sys2Proof.Machine
end

section
/-! PROOF of O34 and O35 (44_stack.md R69): the stack is last in, first out. The idea: POP in a state that has the stack
pointer PUSH left and the cell it stored undoes the move of the stack pointer, and gives the register its value back; for
any number of registers this is an induction on their list, the first one pushed being popped last. -/
namespace Sys2Proof.Machine

/-- What POP increments after PUSH of `r`: the stack pointer PUSH left, which is also what PUSH of the stack pointer itself
stored. -/
theorem loadedSp_after_push {s t : State} {r q : RegIx} (hsp : t.sp = (s.pushed r).sp)
    (hcell : t.cell t.sp.toNat = (s.pushed r).reg r) (hq : q ≠ spIndex ∨ r = q) : t.loadedSp q = (s.pushed r).sp := by
  by_cases he : q = spIndex
  · obtain rfl : r = q := hq.resolve_left (not_not_intro he)
    rw [he, State.loadedSp_self, hcell, he, State.sp]
  · rw [State.loadedSp_other _ he, hsp]

/-- POP into `q` completes after PUSH of `r`, and brings the stack pointer back. -/
theorem pop_after_push {s t : State} {r q : RegIx} (h0 : s.sp.toNat ≠ 0) (hsp : t.sp = (s.pushed r).sp)
    (hcell : t.cell t.sp.toNat = (s.pushed r).reg r) (hq : q ≠ spIndex ∨ r = q) :
    (t.loadedSp q).toNat ≠ 255 ∧ (t.popped q).sp = s.sp := by
  have hlt := s.sp_lt
  have hload : (t.loadedSp q).toNat = s.sp.toNat - 1 := by
    rw [loadedSp_after_push hsp hcell hq, State.pushed_sp_toNat]
  have hne : (t.loadedSp q).toNat ≠ 255 := by omega
  refine ⟨hne, BitVec.eq_of_toNat_eq ?_⟩
  rw [State.popped_sp_toNat hne]
  omega

/-- The cell at the stack pointer PUSH leaves holds what was pushed. -/
theorem pushed_top {s : State} (hwf : Memory.wf s.mem = true) (r : RegIx) :
    (s.pushed r).cell (s.pushed r).sp.toNat = (s.pushed r).reg r := by
  rw [State.pushed_cell hwf, if_pos (s.pushed_sp_toNat r)]

/-- Settles O34. -/
theorem pushThenPopRestoresStackPointer : Obligations.PushThenPopRestoresStackPointer := by
  intro ra rb s ha hb hwf h0 hab
  let r : RegIx := ⟨ra.toNat, ha⟩
  let q : RegIx := ⟨rb.toNat, hb⟩
  have hq : q ≠ spIndex ∨ r = q :=
    hab.imp (fun hne he => hne (congrArg Fin.val he)) (fun he => Fin.ext (congrArg BitVec.toNat he))
  let t := (s.pushed r).advance 2
  obtain ⟨hne, hsp⟩ := pop_after_push (t := t) h0 rfl (pushed_top hwf r) hq
  refine ⟨t, (t.popped q).advance 2, exec_of_completes (.push rfl h0), exec_of_completes (.pop rfl hne), hsp,
    fun p hp => ?_, ?_, ?_⟩
  · by_cases hpsp : p = spIndex
    · subst hpsp; exact hsp
    · rw [State.advance_reg, State.popped_reg _ _ hpsp, if_neg (fun he => hp (congrArg Fin.val he))]
      exact State.pushed_reg_other s r hpsp
  · rintro hrb p hp
    obtain rfl : p = r := Fin.ext hp
    have hqsp : q ≠ spIndex := fun he => hrb (congrArg Fin.val he)
    rw [State.advance_reg, State.popped_reg _ _ hqsp, if_pos rfl]
    exact pushed_top hwf r
  · rintro p hp hra
    exact State.pushed_reg_other s r (fun he => hra (hp ▸ congrArg Fin.val he))

/-! ### Any number of registers -/

theorem execAll_cons {i : Instr} {s t : State} (h : exec i s = .next t) (is : List Instr) :
    execAll (i :: is) s = execAll is t := by
  rw [execAll, h]

theorem execAll_append {is : List Instr} {s t : State} (h : execAll is s = .next t) (js : List Instr) :
    execAll (is ++ js) s = execAll js t := by
  induction is generalizing s with
  | nil =>
    obtain rfl := Host.Outcome.next.inj h
    rfl
  | cons i is ih =>
    obtain ⟨u, hu⟩ := exec_total i s
    rw [execAll_cons hu] at h
    rw [List.cons_append, execAll_cons hu, ih h]

/-- Popping `rs` in reverse, from any state with the stack pointer of `t` and the cells of `t` from there up to the stack
pointer of `s`, completes and gives the registers and the stack pointer what they held in `s` (44_stack.md R69). -/
def PopsBack (rs : List Byte) (s t : State) : Prop :=
  ∀ t' : State, t'.sp = t.sp → (∀ a, t.sp.toNat ≤ a → a < s.sp.toNat → t'.cell a = t.cell a) →
    ∃ u, execAll (rs.reverse.map .pop) t' = .next u ∧ u.sp = s.sp ∧ u.run = t'.run ∧
      (∀ q : RegIx, (∃ r ∈ rs, r.toNat = q.val) → u.reg q = s.reg q) ∧
      (∀ q : RegIx, (∀ r ∈ rs, r.toNat ≠ q.val) → q ≠ spIndex → u.reg q = t'.reg q) ∧
      (∀ a, u.cell a = t'.cell a)

theorem PopsBack.nil (s : State) : PopsBack [] s s :=
  fun t' hsp _ => ⟨t', rfl, hsp, rfl, fun _ ⟨_, hm, _⟩ => (nomatch hm), fun _ _ _ => rfl, fun _ => rfl⟩

/-- One more register pushed first is popped last. -/
theorem PopsBack.cons {s t : State} {b : Byte} {r : RegIx} {rs : List Byte} (hb : b.toNat = r.val)
    (hwf : Memory.wf s.mem = true) (h0 : s.sp.toNat ≠ 0) (hle : t.sp.toNat ≤ (s.pushed r).sp.toNat)
    (hkept : ∀ a, (s.pushed r).sp.toNat ≤ a → t.cell a = (s.pushed r).cell a)
    (h : PopsBack rs ((s.pushed r).advance 2) t) : PopsBack (b :: rs) s t := by
  intro t' hsp hcells
  have hbelow : (s.pushed r).sp.toNat < s.sp.toNat := by
    rw [State.pushed_sp_toNat]
    omega
  obtain ⟨u, hu, husp, hurun, hback, hother, hmem⟩ := h t' hsp fun a hlo hhi => hcells a hlo (Nat.lt_trans hhi hbelow)
  have husp : u.sp = (s.pushed r).sp := husp
  have htop : u.cell u.sp.toNat = (s.pushed r).reg r := by
    rw [hmem, husp, hcells _ hle hbelow, hkept _ (Nat.le_refl _), pushed_top hwf]
  obtain ⟨hne, hspback⟩ := pop_after_push h0 husp htop (.inr rfl)
  refine ⟨(u.popped r).advance 2, ?_, hspback, hurun, fun q hq => ?_, fun q hq hqsp => ?_, hmem⟩
  · rw [List.reverse_cons, List.map_append, execAll_append hu]
    exact execAll_cons (exec_of_completes (.pop hb hne)) []
  · by_cases hqsp : q = spIndex
    · subst hqsp; exact hspback
    · rw [State.advance_reg, State.popped_reg _ _ hqsp]
      split
      · next hqr => rw [htop, hqr, State.pushed_reg_other _ _ (hqr ▸ hqsp)]
      · next hqr =>
        obtain ⟨c, hc, hcq⟩ := hq
        have hcrs : c ∈ rs := (List.mem_cons.mp hc).resolve_left fun he => hqr (Fin.ext (by rw [← hcq, he, hb]))
        exact (hback q ⟨c, hcrs, hcq⟩).trans (State.pushed_reg_other s r hqsp)
  · have hqr : q ≠ r := fun he => hq b List.mem_cons_self (by rw [hb, he])
    rw [State.advance_reg, State.popped_reg _ _ hqsp, if_neg hqr]
    exact hother q (fun c hc => hq c (List.mem_cons_of_mem _ hc)) hqsp

/-- Pushing registers one after another completes where the stack has room, leaves the cells from the old stack pointer up
alone, and can be popped back. -/
theorem pushAll {rs : List Byte} {s : State} (hrs : ∀ r ∈ rs, r.toNat < 8) (hwf : Memory.wf s.mem = true)
    (hroom : rs.length ≤ s.sp.toNat) :
    ∃ t, execAll (rs.map .push) s = .next t ∧ t.sp.toNat + rs.length = s.sp.toNat ∧ t.run = s.run ∧
      (∀ a, s.sp.toNat ≤ a → t.cell a = s.cell a) ∧ PopsBack rs s t := by
  induction rs generalizing s with
  | nil => exact ⟨s, rfl, rfl, rfl, fun _ _ => rfl, .nil s⟩
  | cons b rs ih =>
    rw [List.length_cons] at hroom
    let r : RegIx := ⟨b.toNat, hrs b List.mem_cons_self⟩
    let s' := (s.pushed r).advance 2
    have h0 : s.sp.toNat ≠ 0 := by omega
    have hsp : s'.sp.toNat = s.sp.toNat - 1 := s.pushed_sp_toNat r
    obtain ⟨t, ht, htsp, htrun, htcell, hback⟩ :=
      ih (s := s') (fun c hc => hrs c (List.mem_cons_of_mem _ hc)) (State.pushed_wf hwf r) (by omega)
    have hle : t.sp.toNat ≤ s'.sp.toNat := by omega
    refine ⟨t, ?_, ?_, htrun, fun a ha => ?_, .cons (r := r) rfl hwf h0 hle htcell hback⟩
    · rw [List.map_cons, execAll_cons (exec_of_completes (.push (r := r) rfl h0)), ht]
    · rw [List.length_cons]
      omega
    · exact (htcell a (by omega)).trans ((State.pushed_cell hwf r a).trans (if_neg (by omega)))

/-- Settles O35, by induction on the list of registers. -/
theorem pushedRegistersComeBackInReverse : Obligations.PushedRegistersComeBackInReverse := by
  intro rs s hrs hwf hroom
  obtain ⟨t, ht, hsp, hrun, -, hback⟩ := pushAll hrs hwf hroom
  exact ⟨t, ht, hsp, hrun, hback⟩

end Sys2Proof.Machine
end
